-- ==== Sys2Proof/Word.lean ====
section
/-! DEFINITION. The data the block works on: bits, bitstrings, the digits of an integer port, and operation codes. -/

namespace Sys2Proof

/-- A bit, `false` for 0 and `true` for 1 (00_scope.md R7). -/
abbrev Bit := Bool

/-- A bitstring of any finite length (00_scope.md R7).  Position `i`, counted from 1, is the element of index `i - 1`
(R8); only `Machine.bitAt` and `Machine.writeAt` convert (70_reset_and_hazards.md R110). -/
abbrev Bitstring := List Bit

/-- The wires of an integer port: the element of index `k` is wire `k` and carries binary digit `k`
(20_memory.md R23). -/
abbrev Digits := List Bit

/-- The operation code `op[1:0]` (30_encoding.md R31). -/
abbrev OpCode := BitVec 2

end Sys2Proof
end

