-- ==== Sys2Proof/Machine/Bits.lean ====
section
/-! DEFINITION. Reading and writing a bitstring by 1-based position, exclusive or, the binary digits of an integer port,
and the text form of a bitstring. -/

namespace Sys2Proof.Machine

/-- The positions `1, 2, …, n` of a bitstring of length `n` (20_memory.md R19). -/
def positions (n : Nat) : List Nat := List.range' 1 n

/-- `s[i]`, the bit at position `i` (00_scope.md R8).  No rule reads a position outside `[1, len(s)]`; there the function
answers 0 to be total.  DESIGN CHOICE (log 7). -/
def bitAt (s : Bitstring) : Nat → Bit
  | 0 => false
  | i + 1 => s.getD i false

/-- `s[i] <- v`: `s` with bit `v` at position `i` (00_scope.md R8).  No rule writes a position outside `[1, len(s)]`;
there the function changes nothing.  DESIGN CHOICE (log 7). -/
def writeAt (s : Bitstring) (i : Nat) (v : Bit) : Bitstring :=
  match i with
  | 0 => s
  | i + 1 => s.set i v

/-- `XOR{ … }`: the exclusive or of the listed bits, 0 for none (00_scope.md R8, 49_absent_families.md R119). -/
def xorAll : List Bit → Bit
  | [] => false
  | b :: bs => xor b (xorAll bs)

/-- The position-wise exclusive or of two words of one length (42_syndrome.md R68). -/
def xorWord (s t : Bitstring) : Bitstring := List.zipWith xor s t

/-- `v` carried on `w` wires, wire `k` holding binary digit `k` (00_scope.md R9, 20_memory.md R23). -/
def digits (w v : Nat) : Digits := (List.range w).map v.testBit

/-- The number whose binary digit `k` is wire `k`: the last wire is the most significant
(20_memory.md R23, 42_syndrome.md R62). -/
def ofDigits : Digits → Nat
  | [] => 0
  | d :: ds => d.toNat + 2 * ofDigits ds

/-- The bit a character stands for: `'0'` is 0, `'1'` is 1, and no other character has a bit (30_encoding.md R35). -/
def bitOfChar (ch : Char) : Option Bit :=
  if ch = '0' then some false else if ch = '1' then some true else none

/-- The character a bit is written as (30_encoding.md R35). -/
def charOfBit (b : Bit) : Char := if b then '1' else '0'

/-- The bitstring a text stands for, position 1 first (30_encoding.md R34, R44).  A text with any other character cannot
be presented to the hardware at all (R35). -/
def bitsOfText : List Char → Option Bitstring
  | [] => some []
  | ch :: chs => do
    let b ← bitOfChar ch
    let bs ← bitsOfText chs
    return b :: bs

/-- A bitstring written as text, position 1 first (30_encoding.md R34). -/
def textOfBits (s : Bitstring) : List Char := s.map charOfBit

end Sys2Proof.Machine
end

