-- ==== Sys2Proof/Machine/Classifier.lean ====
section
/-! DEFINITION. Unit CLS, the bit-position classifier, and the counting functions built on it (40_classifier.md). -/

namespace Sys2Proof.Machine

/-- `IsPow2(i)`, form (c): `i > 0 and (i & (i - 1)) == 0` (40_classifier.md R45, R46).  At 0, which no rule evaluates, it is
false (R47, D17; log 8). -/
def isPow2 (i : Nat) : Bool := decide (0 < i) && (i &&& (i - 1)) == 0

/-- The net `is_par[1..n]` (40_classifier.md R48). -/
def isPar (n : Nat) : List Bit := (positions n).map isPow2

/-- `NumPow2(n)`: how many parity positions lie in `[1, n]` (40_classifier.md R49). -/
def numPow2 (n : Nat) : Nat := (positions n).countP isPow2

/-- `DataLen(n)`: how many data positions lie in `[1, n]` (40_classifier.md R49). -/
def dataLen (n : Nat) : Nat := n - numPow2 n

/-- `PP(n)`: the parity positions of a word of length `n`, ascending (40_classifier.md R50). -/
def parityPositions (n : Nat) : List Nat := (List.range (numPow2 n)).map (2 ^ ·)

/-- `DP(n)`: the data positions of a word of length `n`, ascending (40_classifier.md R50). -/
def dataPositions (n : Nat) : List Nat := (positions n).filter (fun i => !isPow2 i)

/-- `DPos(j)`: the `j`-th data position, `j >= 1` (20_memory.md R20, R21).  It lies in `[1, 2j + 1]`: `j` data bits need at
most `j + 1` parity positions.  DEDUCED (log 10). -/
def dataPosition (j : Nat) : Nat := (dataPositions (2 * j + 1)).getD (j - 1) 0

/-- `EncLen(k)`: the least natural number `n` with `DataLen(n) = k` (44_encode.md R80).  The search ends at `2k + 1`, which
is never less than that number.  DEDUCED (log 10). -/
def encLen (k : Nat) : Nat := ((List.range (2 * k + 2)).find? (fun n => dataLen n == k)).getD 0

end Sys2Proof.Machine
end

