-- ==== Sys2Proof/Config.lean ====
section
/-! DEFINITION. What an implementation fixes: the instance size NMAX, the one free parameter.  There is no free value:
no operation draws a value or a choice (00_scope.md R12). -/

namespace Sys2Proof

/-- The parameter `NMAX`, the largest codeword length in bits: a positive integer or `unbounded` (00_scope.md R5). -/
inductive Instance where
  | unbounded
  | bounded (nmax : Nat)
deriving DecidableEq, Repr

namespace Config

/-- The instance at reset: `unbounded`, the default, which matches the document exactly (00_scope.md R5).
DESIGN CHOICE (log 1): `NMAX` is carried by a field of State; this is only its value in `State.reset`. -/
def defaultInstance : Instance := .unbounded

end Config

end Sys2Proof
end

