-- ==== Sys2Proof/Syntax.lean ====
section
/-! DEFINITION. The request and the response as they stand on the ports, and the instruction a request is. -/

namespace Sys2Proof

/-- A request as it stands on the input ports (30_encoding.md R31).  `len` is the wires of `len[LW-1:0]`, wire 0 first;
`din` is the wires `din[1..NMAX]`, wire 1 first, or exactly `len` wires on an unbounded instance. -/
structure Request where
  op : OpCode
  len : Digits
  din : Bitstring
deriving DecidableEq, Repr

/-- A response as it stands on the output ports (30_encoding.md R32), laid out as a request is. -/
structure Response where
  dout : Bitstring
  lenOut : Digits
  errpos : Digits
deriving DecidableEq, Repr

/-- What an operation's pseudocode yields before it is put on the ports: the result bitstring, its length and the error
position (43_correct.md R71, 44_encode.md R81, 45_decode.md R90). -/
structure Result where
  dout : Bitstring
  lenOut : Nat
  errpos : Nat
deriving DecidableEq, Repr

/-- The names of the operations in a call (30_encoding.md R44). -/
inductive OpName where
  | encode
  | decode
  | correct
deriving DecidableEq, Repr

/-- The three operations, one for each row of opcode_table.json (30_encoding.md R38 to R40), with the operand ports of the
request read: `len` as a number and `din` as wires. -/
inductive Instr where
  /-- ENCODE, `op = 0b00` (R38). -/
  | encode (len : Nat) (din : Bitstring)
  /-- DECODE, `op = 0b01` (R39). -/
  | decode (len : Nat) (din : Bitstring)
  /-- CORRECT, `op = 0b10` (R40). -/
  | correct (len : Nat) (din : Bitstring)
deriving DecidableEq, Repr

/-- Why a request is not one of the three operations. -/
inductive DecodeError where
  /-- `op = 0b11`, which the spec gives no meaning (30_encoding.md R41). -/
  | reservedOp
  /-- The `len` wires are not those of the instance: not `LW` wires, or on an unbounded instance not the digits of a natural
  number (R31). -/
  | lenPort
  /-- The `din` wires are not those of the instance: not `NMAX` wires, or on an unbounded instance not `len` wires (R31). -/
  | dinPort
deriving DecidableEq, Repr

namespace Instr

/-- The `len` operand. -/
def len : Instr → Nat
  | .encode len _ => len
  | .decode len _ => len
  | .correct len _ => len

/-- The `din` operand. -/
def din : Instr → Bitstring
  | .encode _ din => din
  | .decode _ din => din
  | .correct _ din => din

/-- The operation's name in a call (30_encoding.md R44). -/
def opName : Instr → OpName
  | .encode _ _ => .encode
  | .decode _ _ => .decode
  | .correct _ _ => .correct

end Instr

end Sys2Proof
end

