-- ==== Sys2Proof/Machine/Operands.lean ====
section
/-! DEFINITION. The sizes that follow from NMAX, how an operand is assembled from the input ports, how a result is put on
the output ports, and how each is read back. -/

namespace Sys2Proof.Machine

/-- The code of an operation (30_encoding.md R38, R39, R40). -/
def opCode : OpName → OpCode
  | .encode => 0b00#2
  | .decode => 0b01#2
  | .correct => 0b10#2

/-- `LW` of an instance of size `nmax` (00_scope.md R6). -/
def portWidth (nmax : Nat) : Nat := numPow2 nmax

/-- `KMAX` of an instance of size `nmax`, equal to `LW` (00_scope.md R6). -/
def parityTrees (nmax : Nat) : Nat := numPow2 nmax

/-- `DCAP` of an instance of size `nmax`: the largest data length (00_scope.md R6). -/
def dataCapacity (nmax : Nat) : Nat := nmax - numPow2 nmax

/-- How many wires carry the number `v`: `LW` on a bounded instance; on an unbounded one just the binary digits of `v`.
DESIGN CHOICE (log 9) for the unbounded case, where the spec gives a natural number and no wires. -/
def lenWires (inst : Instance) (v : Nat) : Nat :=
  match inst with
  | .unbounded => numPow2 v
  | .bounded nmax => portWidth nmax

/-- How many wires a bitstring bus has for a bitstring of `n` bits: `NMAX`, or exactly `n` on an unbounded instance
(30_encoding.md R31, R32). -/
def busWires (inst : Instance) (n : Nat) : Nat :=
  match inst with
  | .unbounded => n
  | .bounded nmax => nmax

/-- The number `v` on an integer port: wire `k` holds digit `k` (20_memory.md R23). -/
def onPort (inst : Instance) (v : Nat) : Digits := digits (lenWires inst v) v

/-- A bitstring on a bus: wire `i` carries position `i`, wires beyond its length carry 0
(30_encoding.md R34, R36). -/
def onBus (inst : Instance) (s : Bitstring) : Bitstring :=
  s ++ List.replicate (busWires inst s.length - s.length) false

/-- `len <= DCAP`, the capacity of ENCODE (30_encoding.md R42).  An unbounded instance never refuses for capacity. -/
def holdsData (inst : Instance) (len : Nat) : Bool :=
  match inst with
  | .unbounded => true
  | .bounded nmax => decide (len ≤ dataCapacity nmax)

/-- `len <= NMAX`, the capacity of DECODE and CORRECT (30_encoding.md R42). -/
def holdsWord (inst : Instance) (len : Nat) : Bool :=
  match inst with
  | .unbounded => true
  | .bounded nmax => decide (len ≤ nmax)

/-- The operand bitstring `s = din[1..len]`; wires beyond `len` are ignored (30_encoding.md R33, R36). -/
def operand (len : Nat) (din : Bitstring) : Bitstring := din.take len

/-- A result put on the output ports (30_encoding.md R32, R36). -/
def drive (inst : Instance) (r : Result) : Response where
  dout := onBus inst r.dout
  lenOut := onPort inst r.lenOut
  errpos := onPort inst r.errpos

/-- The number on the `len` port (20_memory.md R23). -/
def lenOf (r : Request) : Nat := ofDigits r.len

/-- The number on the `len_out` port (20_memory.md R23). -/
def lenOutOf (r : Response) : Nat := ofDigits r.lenOut

/-- The number on the `errpos` port (20_memory.md R23). -/
def errposOf (r : Response) : Nat := ofDigits r.errpos

/-- The result bitstring `dout[1..len_out]` (30_encoding.md R32). -/
def resultOf (r : Response) : Bitstring := r.dout.take (lenOutOf r)

/-- The `len` wires are those of the instance (30_encoding.md R31). -/
def lenPortFits (inst : Instance) (r : Request) : Bool := r.len == onPort inst (lenOf r)

/-- The `din` wires are those of the instance (30_encoding.md R31). -/
def dinPortFits (inst : Instance) (r : Request) : Bool := r.din.length == busWires inst (lenOf r)

/-- The request a call stands for: `op` from the name, `len` the number of characters, `din[i]` the `i`-th character
(30_encoding.md R44); none for a text with a character other than '0' and '1' (R35), and none for a text a bounded
instance has not wires enough for.  Spare wires are given 0; they are ignored (R36).  DESIGN CHOICE (log 12). -/
def requestOfCall (inst : Instance) (op : OpName) (text : List Char) : Option Request :=
  match bitsOfText text with
  | none => none
  | some s =>
    if holdsWord inst s.length then some { op := opCode op, len := onPort inst s.length, din := onBus inst s } else none

/-- What a call answers: the text of the result and the error position (30_encoding.md R44). -/
def callResult (r : Response) : List Char × Nat := (textOfBits (resultOf r), errposOf r)

end Sys2Proof.Machine
end

