-- ==== Sys2Proof/WellFormed.lean ====
section
/-! DEFINITION. Which instructions a request of an instance can hold. -/

namespace Sys2Proof

/-- The length fits the wires of the `len` port (30_encoding.md R31; 00_scope.md R9). -/
def Instr.lenFits (inst : Instance) (i : Instr) : Bool := decide (i.len < 2 ^ Machine.lenWires inst i.len)

/-- There is one bit for each wire of `din` (30_encoding.md R31). -/
def Instr.dinFits (inst : Instance) (i : Instr) : Bool := i.din.length == Machine.busWires inst i.len

/-- An instruction that a request of the instance can hold.  Every value of `len` and of the `din` wires is legal
(30_encoding.md R43); a length over capacity is well formed and refused when it is executed (R42). -/
def WellFormed (inst : Instance) (i : Instr) : Bool := i.lenFits inst && i.dinFits inst

end Sys2Proof
end

