-- ==== Sys2Proof/Decode.lean ====
section
/-! DEFINITION. From the wires of a request to an instruction, and back. -/

namespace Sys2Proof

/-- The instruction on the input ports of an instance.  The code is tested before anything else (30_encoding.md R33,
60_exceptions.md R101); `0b11` is reserved (R41). -/
def decode (inst : Instance) (r : Request) : Except DecodeError Instr :=
  if r.op = 0b11#2 then .error .reservedOp
  else if !Machine.lenPortFits inst r then .error .lenPort
  else if !Machine.dinPortFits inst r then .error .dinPort
  else if r.op = 0b00#2 then .ok (.encode (Machine.lenOf r) r.din)
  else if r.op = 0b01#2 then .ok (.decode (Machine.lenOf r) r.din)
  else .ok (.correct (Machine.lenOf r) r.din)

/-- The request an instruction stands for (30_encoding.md R31, R38 to R40; 20_memory.md R23). -/
def encode (inst : Instance) (i : Instr) : Request where
  op := Machine.opCode i.opName
  len := Machine.onPort inst i.len
  din := i.din

/-- The request of one word of opcode_table.json: bits 1..0 are `op[1:0]`, the only field the table's match and mask cover;
the other ports carry the operand of zeros, which is the empty operand.  DESIGN CHOICE (log 6). -/
def requestOfTableWord (inst : Instance) (w : Nat) : Request where
  op := BitVec.ofNat 2 w
  len := Machine.onPort inst 0
  din := Machine.onBus inst []

/-- The instruction the decoder reads from a word of opcode_table.json, on the default instance. -/
def decodeTableWord (_nbits w : Nat) : Option Instr :=
  (decode Config.defaultInstance (requestOfTableWord Config.defaultInstance w)).toOption

end Sys2Proof
end

