-- ==== Sys2Proof/Machine/State.lean ====
section
/-! DEFINITION. The state: the instance parameter, the requests presented and the responses given.  The block itself has no
architectural state (10_state.md R13 to R18). -/

namespace Sys2Proof.Machine

/-- What a step reads and yields.  None of it is a register of the block: the spec gives it none (10_state.md R13 to R17), and
"what is not state, but a parameter of the step" is `NMAX` and the request.  DESIGN CHOICE (log 1, log 2). -/
structure State where
  /-- `NMAX` (00_scope.md R5).  No step changes it. -/
  inst : Instance
  /-- The requests presented and not yet evaluated, oldest first (30_encoding.md R31, R44). -/
  requests : List Request
  /-- The responses given, in the order of their requests (30_encoding.md R32).  No rule reads them (10_state.md R17). -/
  responses : List Response
deriving DecidableEq, Repr

/-- The reasons the machine stops with a fault: none.  "The block has no exceptions, no traps and no cause codes"
(60_exceptions.md R96), and no request makes it fault or hang (R99). -/
inductive Fault where
deriving DecidableEq, Repr

/-- The reasons a step gives no response (60_exceptions.md R100).  A refusal is not an exception of the hardware. -/
inductive Refusal where
  /-- Raised by `exec` for an instruction without a meaning yet.  Safe. -/
  | notModelled (mnemonic : String)
  /-- Raised by the decoder for `op = 0b11` (30_encoding.md R41).  Safe: nothing can be proved of such a request. -/
  | reservedOp
  /-- Raised by a meaning on a bounded instance whose capacity the length exceeds (30_encoding.md R42).  Safe. -/
  | overCapacity
  /-- Raised by the decoder where the `len` wires are not those of the instance, which no host can present
  (30_encoding.md R31).  Safe.  DESIGN CHOICE (log 5). -/
  | lenPort
  /-- Raised by the decoder where the `din` wires are not those of the instance, which no host can present
  (30_encoding.md R31).  Safe.  DESIGN CHOICE (log 5). -/
  | dinPort
  /-- Raised by the step where no request is presented: there is no evaluation to make (70_reset_and_hazards.md R109).  Safe.
  DESIGN CHOICE (log 3). -/
  | noRequest
deriving DecidableEq, Repr

/-- The state after reset: no request presented, no response given, the default instance (10_state.md R18,
70_reset_and_hazards.md R106, R107).  DESIGN CHOICE (log 1, log 2): the spec's initial state is the unit value. -/
def State.reset : State where
  inst := Config.defaultInstance
  requests := []
  responses := []

end Sys2Proof.Machine
end

