-- ==== Sys2Proof/Machine/Ops.lean ====
section
/-! DEFINITION. The shared operations over the state: taking a request, giving a response, presenting a request.  There is
no operation that takes an exception or returns from one: nothing is raised (60_exceptions.md R96, R104). -/

namespace Sys2Proof.Machine

/-- What every operation answers with. -/
abbrev Answer := Host.Outcome State Fault Refusal

/-- The oldest request presented, and the state without it.  DESIGN CHOICE (log 4): the spec fixes no order. -/
def State.fetch (s : State) : Option (Request × State) :=
  match s.requests with
  | [] => none
  | r :: rest => some (r, { s with requests := rest })

/-- The end of an evaluation is the production of its response (70_reset_and_hazards.md R109).  A refusal produces none
(60_exceptions.md R100) and ends the run.  DESIGN CHOICE (log 13). -/
def State.answer (s : State) : Except Refusal Response → Answer
  | .ok r => .next { s with responses := s.responses ++ [r] }
  | .error e => .refused e

/-- The response of an operation within capacity, or the refusal over it (30_encoding.md R33, R42). -/
def respond (inst : Instance) (within : Bool) (r : Result) : Except Refusal Response :=
  if within then .ok (drive inst r) else .error .overCapacity

/-- The refusal a request that is no operation meets (60_exceptions.md R100). -/
def refusalOf : DecodeError → Refusal
  | .reservedOp => .reservedOp
  | .lenPort => .lenPort
  | .dinPort => .dinPort

/-- The host presents a request ahead of those waiting (00_scope.md R12). -/
def State.present (s : State) (r : Request) : State := { s with requests := r :: s.requests }

end Sys2Proof.Machine
end

