-- ==== Sys2Proof/Machine/ParityGen.lean ====
section
/-! DEFINITION. Unit PGEN, the parallel parity-bit generator (41_parity_generator.md). -/

namespace Sys2Proof.Machine

/-- `Cov(p, n)`: the positions of `[1, n]` whose bits enter the parity of `p`: `i != p` and `(i & p) != 0`
(41_parity_generator.md R52, R53). -/
def coverage (p n : Nat) : List Nat := (positions n).filter (fun i => i != p && (i &&& p) != 0)

/-- `Parity(s, p) = XOR{ s[i] : 1 <= i <= n, i != p, (i & p) != 0 }` (41_parity_generator.md R52).  The stored bit `s[p]` is
no input.  For a `p` outside `PP(len(s))`, which no rule evaluates, it is what the formula gives
(R57, D18; log 8). -/
def parity (s : Bitstring) (p : Nat) : Bit := xorAll ((coverage p s.length).map (bitAt s))

/-- `PGEN(w)`: the parity vector `par[0 .. K-1]`, lowest parity position first, every entry computed from the same word
(41_parity_generator.md R55). -/
def parityVector (w : Bitstring) : List Bit := (parityPositions w.length).map (parity w)

end Sys2Proof.Machine
end

