-- ==== Sys2Proof/Machine/Syndrome.lean ====
section
/-! DEFINITION. Unit SYN, the syndrome calculator (42_syndrome.md). -/

namespace Sys2Proof.Machine

/-- `Mismatch(s, p) = Parity(s, p) ^ s[p]` (42_syndrome.md R60, 70_reset_and_hazards.md R113). -/
def mismatch (s : Bitstring) (p : Nat) : Bit := xor (parity s p) (bitAt s p)

/-- The mismatch vector `mis[0 .. K-1]`, lowest parity position first, every entry computed from the word as received
(42_syndrome.md R61, 70_reset_and_hazards.md R111). -/
def mismatchVector (s : Bitstring) : List Bit := (parityPositions s.length).map (mismatch s)

/-- `Syn(s)`: binary digit `k` is the mismatch bit of parity position `2^k`; the empty vector assembles to 0
(42_syndrome.md R62, R63, 70_reset_and_hazards.md R114). -/
def syndrome (s : Bitstring) : Nat := ofDigits (mismatchVector s)

/-- `Valid(s)`: `Syn(s) = 0` (42_syndrome.md R64, 90_conflicts.md C3). -/
def valid (s : Bitstring) : Bool := syndrome s == 0

/-- `ErrPos(s)`: the syndrome when it names a position of the word, else 0 (42_syndrome.md R66, 90_conflicts.md C1). -/
def errPos (s : Bitstring) : Nat := if 1 ≤ syndrome s ∧ syndrome s ≤ s.length then syndrome s else 0

end Sys2Proof.Machine
end

