-- ==== Sys2Proof/Machine/Corrector.lean ====
section
/-! DEFINITION. Unit COR, the single-bit error corrector, and the CORRECT operation (43_correct.md). -/

namespace Sys2Proof.Machine

/-- `Flip(s, e)`: `s` with bit `e` inverted when `1 <= e <= len(s)`, else `s` (43_correct.md R70). -/
def flipBit (s : Bitstring) (e : Nat) : Bitstring :=
  if 1 ≤ e ∧ e ≤ s.length then writeAt s e (!bitAt s e) else s

/-- The net `flip_mask[1..n]`: 1 exactly at position `e` (43_correct.md R70, 30_encoding.md R33). -/
def flipMask (n e : Nat) : List Bit := (positions n).map (fun i => e == i)

/-- CORRECT on an operand: the syndrome of the word as received, then one flip, once
(43_correct.md R71, R74; 70_reset_and_hazards.md R111, R116). -/
def correctResult (c : Bitstring) : Result where
  dout := flipBit c (errPos c)
  lenOut := c.length
  errpos := errPos c

/-- CORRECT (43_correct.md R71; capacity 30_encoding.md R42). -/
def execCorrect (len : Nat) (din : Bitstring) (s : State) : Answer :=
  s.answer (respond s.inst (holdsWord s.inst len) (correctResult (operand len din)))

end Sys2Proof.Machine
end

