-- ==== Sys2Proof/Machine/Decoder.lean ====
section
/-! DEFINITION. The DECODE operation: correct, then drop the parity positions (45_decode.md). -/

namespace Sys2Proof.Machine

/-- `Extract(s)`: the bits at the data positions, in order (45_decode.md R89). -/
def extract (s : Bitstring) : Bitstring := (dataPositions s.length).map (bitAt s)

/-- DECODE on an operand: the corrected word's data bits; the error position is dropped (45_decode.md R90, R91). -/
def decodeResult (c : Bitstring) : Result where
  dout := extract (correctResult c).dout
  lenOut := dataLen c.length
  errpos := 0

/-- DECODE (45_decode.md R90; capacity 30_encoding.md R42). -/
def execDecode (len : Nat) (din : Bitstring) (s : State) : Answer :=
  s.answer (respond s.inst (holdsWord s.inst len) (decodeResult (operand len din)))

end Sys2Proof.Machine
end

