-- ==== Sys2Proof/Machine/Encoder.lean ====
section
/-! DEFINITION. Unit ENC, the encoder, and the ENCODE operation (44_encode.md). -/

namespace Sys2Proof.Machine

/-- The walk of `Layout` from position `pos`: a placeholder 0 in a parity slot, the next data bit in any other, and an end
as soon as the last data bit is placed (44_encode.md R79, R87).  `steps` bounds the walk. -/
def layoutWalk (steps pos : Nat) (d : Bitstring) : Bitstring :=
  match d, steps with
  | [], _ => []
  | _ :: _, 0 => []
  | b :: rest, steps + 1 =>
    if isPow2 pos then false :: layoutWalk steps (pos + 1) (b :: rest)
    else b :: layoutWalk steps (pos + 1) rest

/-- `Layout(d)`, the net `lay` (44_encode.md R79).  The walk visits at most `2k + 1` positions.  DEDUCED (log 10). -/
def layout (d : Bitstring) : Bitstring := layoutWalk (2 * d.length + 1) 1 d

/-- Fills the listed slots, each with its parity over the codeword as it stands (44_encode.md R81 step 2). -/
def fillSlots (slots : List Nat) (cw : Bitstring) : Bitstring :=
  slots.foldl (fun cw p => writeAt cw p (parity cw p)) cw

/-- ENCODE's codeword, in the document's order: all data placed, then every slot filled, ascending
(44_encode.md R81, 70_reset_and_hazards.md R112). -/
def encodeWord (d : Bitstring) : Bitstring := fillSlots (parityPositions (layout d).length) (layout d)

/-- The parallel form: one parity vector of the layout, merged at the parity positions (44_encode.md R81, R83). -/
def encodeParallel (d : Bitstring) : Bitstring :=
  let lay := layout d
  let par := parityVector lay
  (positions lay.length).map (fun i => if isPow2 i then par.getD (Nat.log2 i) false else bitAt lay i)

/-- ENCODE on an operand (44_encode.md R81; `errpos` 0 by 30_encoding.md R37). -/
def encodeResult (d : Bitstring) : Result where
  dout := encodeWord d
  lenOut := (encodeWord d).length
  errpos := 0

/-- ENCODE (44_encode.md R81, R82; capacity 30_encoding.md R42). -/
def execEncode (len : Nat) (din : Bitstring) (s : State) : Answer :=
  s.answer (respond s.inst (holdsData s.inst len) (encodeResult (operand len din)))

end Sys2Proof.Machine
end

