-- ==== Sys2Proof/Machine/Dispatch.lean ====
section
/-! DEFINITION. One arm for each operation (30_encoding.md R33). -/

namespace Sys2Proof.Machine

def exec (i : Instr) (s : State) : Host.Outcome State Fault Refusal :=
  match i with
  | .encode len din => Sys2Proof.Machine.execEncode len din s
  | .decode len din => Sys2Proof.Machine.execDecode len din s
  | .correct len din => Sys2Proof.Machine.execCorrect len din s

end Sys2Proof.Machine
end

