-- ==== Sys2Proof/Machine/Step.lean ====
section
/-! DEFINITION. One step is one evaluation: take the oldest request, decode it, execute it (30_encoding.md R33). -/

namespace Sys2Proof.Machine

/-- One evaluation (30_encoding.md R33). -/
def step (s : State) : Host.Outcome State Fault Refusal :=
  match s.fetch with
  | none => .refused .noRequest
  | some (r, rest) =>
    match decode s.inst r with
    | .error e => .refused (refusalOf e)
    | .ok i => exec i rest

/-- `s` with the request of one word of opcode_table.json presented next (log 6). -/
def State.withFetchWord (s : State) (_nbits w : Nat) : State := s.present (requestOfTableWord s.inst w)

end Sys2Proof.Machine
end

