-- ==== Sys2Proof/Machine/Flags.lean ====
section
/-! DEFINITION. What a host reads off a response in place of flags: the block has none (10_state.md R17), and the error
position is a value returned with the response. -/

namespace Sys2Proof.Machine

/-- A bit was corrected: `errpos != 0` (60_exceptions.md R97). -/
def reportsCorrection (r : Response) : Bool := errposOf r != 0

end Sys2Proof.Machine
end

