-- ==== Sys2Proof/Safety.lean ====
section
/-! DEFINITION. The terms claims use: what a well-formed state is, which requests are accepted, and what an instruction
gives. -/

namespace Sys2Proof.Machine

/-- `NMAX` is a positive integer or `unbounded` (00_scope.md R5). -/
def instanceWf (inst : Instance) : Bool :=
  match inst with
  | .unbounded => true
  | .bounded nmax => decide (0 < nmax)

/-- The request's wires are those of the instance (30_encoding.md R31). -/
def requestFits (inst : Instance) (r : Request) : Bool := lenPortFits inst r && dinPortFits inst r

/-- The response's wires are those of the instance, its length is within the bus, its error position lies in
`[0, len_out]`, and every wire of `dout` beyond `len_out` is 0 (30_encoding.md R32, R36). -/
def responseFits (inst : Instance) (r : Response) : Bool :=
  r.lenOut == onPort inst (lenOutOf r) && r.errpos == onPort inst (errposOf r)
    && r.dout.length == busWires inst (lenOutOf r) && holdsWord inst (lenOutOf r)
    && decide (errposOf r ≤ lenOutOf r) && (r.dout.drop (lenOutOf r)).all (fun b => !b)

/-- Every request and every response of the state has the wires of a legal instance. -/
def State.wf (s : State) : Bool :=
  instanceWf s.inst && s.requests.all (requestFits s.inst) && s.responses.all (responseFits s.inst)

/-- The length of an instruction is within the capacity its operation has (30_encoding.md R42). -/
def withinCapacity (inst : Instance) : Instr → Bool
  | .encode len _ => holdsData inst len
  | .decode len _ => holdsWord inst len
  | .correct len _ => holdsWord inst len

/-- A request of the instance that is one of the three operations, within capacity: what a host may present
(70_reset_and_hazards.md R108). -/
def accepted (inst : Instance) (r : Request) : Bool :=
  match decode inst r with
  | .error _ => false
  | .ok i => withinCapacity inst i

/-- `exec` answers a next state that has exactly one response more: its result bitstring `dout[1..len_out]`, its length and its
error position are those given, and its wires are those of the instance, with 0 on every wire of `dout` beyond `len_out` (the
wires of an unbounded instance are the model's, log 9).  Nothing else of the state changes. -/
def Gives (s : State) (i : Instr) (dout : Bitstring) (lenOut errpos : Nat) : Prop :=
  ∃ r : Response, exec i s = .next { s with responses := s.responses ++ [r] } ∧
    resultOf r = dout ∧ lenOutOf r = lenOut ∧ errposOf r = errpos ∧ responseFits s.inst r = true

/-- The state in which a request is the only one ever issued to an instance (20_memory.md R29 (b)). -/
def State.only (inst : Instance) (r : Request) : State where
  inst := inst
  requests := [r]
  responses := []

/-- The responses an outcome holds; none for a refusal. -/
def responsesOf : Answer → List Response
  | .next t => t.responses
  | .fault _ => []
  | .refused _ => []

/-- The response a request gets if it is the only one ever issued (20_memory.md R29 (b)); none if it is refused. -/
def responsesAlone (inst : Instance) (r : Request) : List Response := responsesOf (step (State.only inst r))

/-- The word with the bits at the listed positions inverted (42_syndrome.md R69). -/
def flipAll (s : Bitstring) (qs : List Nat) : Bitstring := qs.foldl flipBit s

/-- The exclusive or, as natural numbers, of the positions that hold a 1 (42_syndrome.md R68). -/
def xorOfOnes (s : Bitstring) : Nat := ((positions s.length).filter (bitAt s)).foldr (· ^^^ ·) 0

/-- The exclusive or, as natural numbers, of the listed positions (42_syndrome.md R69). -/
def xorOf (qs : List Nat) : Nat := qs.foldr (· ^^^ ·) 0

/-- A length at which every syndrome value names a position: `2^K - 1` for some `K` (00_scope.md glossary). -/
def PerfectLength (n : Nat) : Prop := ∃ k, n = 2 ^ k - 1

end Sys2Proof.Machine
end

