-- ==== Sys2Proof/Certificates/Slice0/Obligations.lean ====
section
/-! DEFINITION. The statements for the provers, in the order of the spec's rules. -/

open Sys2Proof Sys2Proof.Machine

/-! ### Unit CLS (40_classifier.md) -/

/-- R45: on its domain, the positions from 1, the classifier is true exactly at the powers of two. -/
def Obligations.ClassifierIsPowerOfTwo : Prop :=
  (∀ i, 1 ≤ i → (isPow2 i = true ↔ ∃ k, i = 2 ^ k)) ∧ isPow2 4 = true ∧ isPow2 6 = false

/-- R46, R47: the document's three forms of the test agree on every position, form (b) in any width with a digit above the
highest set digit of `i`, and the hardware reading is that exactly one wire is 1; at 0, which no use of the classifier
reaches, forms (a) and (b) are true and form (c), the classifier, is false. -/
def Obligations.ClassifierFormsAgree : Prop :=
  (∀ i, 1 ≤ i →
    (i &&& (i - 1) = 0 ↔ isPow2 i = true) ∧
    (∀ w, i < 2 ^ (w - 1) → (BitVec.ofNat w i = BitVec.ofNat w i &&& -BitVec.ofNat w i ↔ isPow2 i = true)) ∧
    (0 < i ∧ i &&& (i - 1) = 0 ↔ isPow2 i = true) ∧
    (∀ w, i < 2 ^ w → ((∃! k, k < w ∧ i.testBit k = true) ↔ isPow2 i = true))) ∧
  (0 &&& (0 - 1) = 0) ∧ (∀ w, BitVec.ofNat w 0 = BitVec.ofNat w 0 &&& -BitVec.ofNat w 0) ∧ isPow2 0 = false ∧
  ∀ n, ∀ i ∈ positions n, 1 ≤ i

/-- R51: the property the document asks a test to check. -/
def Obligations.ClassifierUpToSixtyFour : Prop :=
  ∀ n, 1 ≤ n → n ≤ 64 → (isPow2 n = true ↔ n ∈ [1, 2, 4, 8, 16, 32, 64])

/-- R49: `NumPow2(n)` counts the parity positions of `[1, n]` and is `floor(log2 n) + 1`; `DataLen(n)` counts the data
positions, stays the same at a parity position and rises by one at any other; and the table. -/
def Obligations.PositionCounts : Prop :=
  (∀ n, numPow2 n = ((positions n).filter isPow2).length ∧ dataLen n = n - numPow2 n ∧
    dataLen n = ((positions n).filter (fun i => !isPow2 i)).length) ∧
  numPow2 0 = 0 ∧ (∀ n, 1 ≤ n → numPow2 n = Nat.log2 n + 1) ∧
  (∀ n, 1 ≤ n → dataLen n = if isPow2 n then dataLen (n - 1) else dataLen (n - 1) + 1) ∧
  [0, 1, 2, 3, 4, 5, 6, 7, 8, 9, 10, 11, 12, 13, 14, 15, 16, 17, 31, 32, 63, 64].map numPow2 =
    [0, 1, 2, 2, 3, 3, 3, 3, 4, 4, 4, 4, 4, 4, 4, 4, 5, 5, 5, 6, 6, 7] ∧
  [0, 1, 2, 3, 4, 5, 6, 7, 8, 9, 10, 11, 12, 13, 14, 15, 16, 17, 31, 32, 63, 64].map dataLen =
    [0, 0, 0, 1, 1, 2, 3, 4, 4, 5, 6, 7, 8, 9, 10, 11, 11, 12, 26, 26, 57, 57]

/-- R50: `PP(n)` and `DP(n)` are the parity and the data positions of `[1, n]`, each ascending. -/
def Obligations.PositionLists : Prop :=
  (∀ n, parityPositions n = (List.range (numPow2 n)).map (2 ^ ·) ∧
    (∀ i, i ∈ parityPositions n ↔ 1 ≤ i ∧ i ≤ n ∧ isPow2 i = true) ∧ (parityPositions n).Pairwise (· < ·) ∧
    (∀ i, i ∈ dataPositions n ↔ 1 ≤ i ∧ i ≤ n ∧ i ∉ parityPositions n) ∧ (dataPositions n).Pairwise (· < ·) ∧
    (dataPositions n).length = dataLen n) ∧
  parityPositions 0 = [] ∧ parityPositions 6 = [1, 2, 4] ∧ dataPositions 6 = [3, 5, 6] ∧
  parityPositions 8 = [1, 2, 4, 8] ∧ dataPositions 8 = [3, 5, 6, 7] ∧ parityPositions 1 = [1] ∧ dataPositions 1 = []

/-- R21: data bit `j` sits at position `EncLen(j)`: the position that is no parity position and by which `j` data positions
have been passed. -/
def Obligations.DataBitPosition : Prop :=
  (∀ j, 1 ≤ j → dataPosition j = encLen j ∧ isPow2 (dataPosition j) = false ∧ dataLen (dataPosition j) = j) ∧
  [1, 2, 3, 4, 5, 6, 7, 8, 9, 10, 11].map dataPosition = [3, 5, 6, 7, 9, 10, 11, 12, 13, 14, 15]

/-! ### Unit PGEN (41_parity_generator.md) -/

/-- R52, R53, R58: the parity of a parity position is the exclusive or of the bits at the positions it covers, all in range; the
bit stored at the position itself is no input; position `2^k` covers exactly the other positions whose binary digit `k` is 1,
all of them above it; and the tables. -/
def Obligations.ParityCoverage : Prop :=
  (∀ s : Bitstring, ∀ p ∈ parityPositions s.length,
    parity s p = xorAll (((positions s.length).filter (fun i => i != p && (i &&& p) != 0)).map (bitAt s)) ∧
    (∀ i ∈ coverage p s.length, 1 ≤ i ∧ i ≤ s.length) ∧ ∀ v, parity (writeAt s p v) p = parity s p) ∧
  parity [true, false, true, true, false, true] 2 = false ∧
  (∀ k n i, i ∈ coverage (2 ^ k) n ↔ 1 ≤ i ∧ i ≤ n ∧ i ≠ 2 ^ k ∧ i.testBit k = true) ∧
  (∀ k n, ∀ i ∈ coverage (2 ^ k) n, 2 ^ k < i) ∧
  coverage 1 15 = [3, 5, 7, 9, 11, 13, 15] ∧ coverage 2 15 = [3, 6, 7, 10, 11, 14, 15] ∧
  coverage 4 15 = [5, 6, 7, 12, 13, 14, 15] ∧ coverage 8 15 = [9, 10, 11, 12, 13, 14, 15] ∧
  coverage 16 31 = [17, 18, 19, 20, 21, 22, 23, 24, 25, 26, 27, 28, 29, 30, 31] ∧
  coverage 1 6 = [3, 5] ∧ coverage 2 6 = [3, 6] ∧ coverage 4 6 = [5, 6] ∧
  coverage 1 7 = [3, 5, 7] ∧ coverage 2 7 = [3, 6, 7] ∧ coverage 4 7 = [5, 6, 7]

/-- R54: no parity position covers a parity position, so the parity bits of a word depend on its data bits only; and a data
position is covered by exactly the powers of two in its binary expansion. -/
def Obligations.NoParityPositionIsCovered : Prop :=
  (∀ n, ∀ p ∈ parityPositions n, ∀ q ∈ parityPositions n, q ∉ coverage p n) ∧
  (∀ s t : Bitstring, s.length = t.length → (∀ i ∈ dataPositions s.length, bitAt s i = bitAt t i) →
    ∀ p ∈ parityPositions s.length, parity s p = parity t p) ∧
  (∀ n, ∀ i ∈ dataPositions n, (∃ p ∈ parityPositions n, i ∈ coverage p n) ∧
    ∀ p, (p ∈ parityPositions n ∧ i ∈ coverage p n) ↔ ∃ k, p = 2 ^ k ∧ i.testBit k = true)

/-- R55: the parity vector holds the parity of `2^k` at entry `k`, all over one word; at a length `2^K - 1` each tree has
`2^(K-1) - 1` inputs. -/
def Obligations.ParityVectorEntries : Prop :=
  (∀ w : Bitstring, parityVector w = (List.range (numPow2 w.length)).map (fun k => parity w (2 ^ k))) ∧
  (∀ K k, k < K → (coverage (2 ^ k) (2 ^ K - 1)).length = 2 ^ (K - 1) - 1) ∧
  parityVector [false, false, true, false, false, true] = [true, false, true]

/-- R56: when a coverage set is empty, and the parities 0 that follow. -/
def Obligations.EmptyCoverage : Prop :=
  (∀ n, ∀ p ∈ parityPositions n, (coverage p n = [] ↔ if p = 1 then n = 1 ∨ n = 2 else n = p)) ∧
  (∀ (s : Bitstring) (p : Nat), coverage p s.length = [] → parity s p = false) ∧
  parity [true] 1 = false ∧ parity [true, true] 1 = false ∧ parity [true, true] 2 = false ∧
  (∀ s : Bitstring, s.length = 4 → parity s 4 = false) ∧ (∀ s : Bitstring, s.length = 8 → parity s 8 = false) ∧
  parityVector [] = []

/-! ### Unit SYN (42_syndrome.md) -/

/-- R60: the mismatch bit is the recomputed parity against the stored bit, and equals the exclusive or of every bit that shares
the position's digit, itself included. -/
def Obligations.MismatchForms : Prop :=
  (∀ s : Bitstring, ∀ p ∈ parityPositions s.length,
    mismatch s p = xor (parity s p) (bitAt s p) ∧
    mismatch s p = xorAll (((positions s.length).filter (fun i => (i &&& p) != 0)).map (bitAt s))) ∧
  mismatch [true, false, false, false, true, false, true] 1 = true

/-- R62, R63: digit `k` of the syndrome is the mismatch bit of parity position `2^k`, so that each failing check adds its own
position; the empty word has syndrome 0. -/
def Obligations.SyndromeAssembly : Prop :=
  (∀ s : Bitstring,
    syndrome s = ((List.range (numPow2 s.length)).map (fun k => (mismatch s (2 ^ k)).toNat * 2 ^ k)).sum ∧
    (∀ k, (syndrome s).testBit k = (decide (k < numPow2 s.length) && mismatch s (2 ^ k))) ∧
    syndrome s = ((parityPositions s.length).filter (mismatch s)).sum) ∧
  syndrome [true, false, false, false, true, false, true] = 3 ∧ mismatchVector [] = [] ∧ syndrome [] = 0

/-- R59, R64: a word is valid exactly when every stored parity bit is the parity of its position. -/
def Obligations.ValidIsParityInvariant : Prop :=
  (∀ s : Bitstring, (valid s = true ↔ syndrome s = 0) ∧
    (valid s = true ↔ ∀ b ∈ mismatchVector s, b = false) ∧
    (valid s = true ↔ ∀ p ∈ parityPositions s.length, bitAt s p = parity s p)) ∧ valid [] = true

/-- R65: the range of the syndrome; every value of it is met; it exceeds the length of some word exactly at the lengths that
are not `2^K - 1`; and it fits the wires of any instance that holds the word. -/
def Obligations.SyndromeRange : Prop :=
  ∀ n, 1 ≤ n →
    (∀ s : Bitstring, s.length = n → syndrome s ≤ 2 ^ numPow2 n - 1) ∧
    numPow2 n = Nat.log2 n + 1 ∧ n ≤ 2 ^ numPow2 n - 1 ∧ 2 ^ numPow2 n - 1 < 2 * n ∧
    (∀ v, v ≤ 2 ^ numPow2 n - 1 → ∃ s : Bitstring, s.length = n ∧ syndrome s = v) ∧
    ((∃ s : Bitstring, s.length = n ∧ n < syndrome s) ↔ ¬ PerfectLength n) ∧
    (∀ nmax, n ≤ nmax → numPow2 n ≤ portWidth nmax)

/-- R66: the error position is the syndrome when that names a position of the word and 0 otherwise, so it lies in `[0, n]`. -/
def Obligations.ErrorPositionRange : Prop :=
  (∀ s : Bitstring, errPos s = (if 1 ≤ syndrome s ∧ syndrome s ≤ s.length then syndrome s else 0) ∧
    errPos s ≤ s.length) ∧
  errPos [true, false, false, false, true, false, true] = 3 ∧
  errPos [true, false, true, false, true, false, true] = 0 ∧ errPos [false, false, true, true, false, false] = 0

/-- R67: inverting one bit of a valid codeword makes the syndrome its position; hence a syndrome past the end comes only from a
word two or more flips away from every valid codeword, and such words exist exactly at the lengths not `2^K - 1`. -/
def Obligations.SingleFlipLaw : Prop :=
  (∀ c : Bitstring, valid c = true → ∀ q, 1 ≤ q → q ≤ c.length →
    syndrome (flipBit c q) = q ∧ errPos (flipBit c q) = q) ∧
  (∀ s : Bitstring, s.length < syndrome s → ∀ c : Bitstring, c.length = s.length → valid c = true →
    s ≠ c ∧ ∀ q, s ≠ flipBit c q) ∧
  ∀ n, (∃ s : Bitstring, s.length = n ∧ n < syndrome s) ↔ ¬ PerfectLength n

/-- R68: the syndrome, built from parities and stored bits, is the exclusive or of the positions that hold a 1; so it is
linear. -/
def Obligations.SyndromeClosedForm : Prop :=
  (∀ s : Bitstring, syndrome s = xorOfOnes s) ∧
  (∀ s t : Bitstring, s.length = t.length → syndrome (xorWord s t) = syndrome s ^^^ syndrome t)

/-- R69: the syndrome after inverting bits of a valid codeword; for two bits it is never 0 and never one of the two; for
three it can be 0. -/
def Obligations.MultipleFlipsSyndrome : Prop :=
  (∀ (c : Bitstring) (qs : List Nat), valid c = true → qs.Nodup → (∀ q ∈ qs, 1 ≤ q ∧ q ≤ c.length) →
    syndrome (flipAll c qs) = xorOf qs) ∧
  (∀ q r, 1 ≤ q → 1 ≤ r → q ≠ r → xorOf [q, r] ≠ 0 ∧ xorOf [q, r] ≠ q ∧ xorOf [q, r] ≠ r) ∧ xorOf [1, 2, 3] = 0

/-! ### Unit COR and CORRECT (43_correct.md) -/

/-- R70: the corrector inverts exactly the bit at `e` when `e` is a position of the word, never changes the length, and is the
exclusive or with the one-hot flip mask. -/
def Obligations.FlipIsOneBit : Prop :=
  (∀ (s : Bitstring) (e : Nat), (flipBit s e).length = s.length ∧
    (∀ i, 1 ≤ i → i ≤ s.length → bitAt (flipBit s e) i = if i = e then !bitAt s i else bitAt s i) ∧
    flipBit s e = xorWord s (flipMask s.length e) ∧ (e = 0 ∨ s.length < e → flipBit s e = s)) ∧
  flipBit [true, false, false, false, true, false, true] 3 = [true, false, true, false, true, false, true]

/-- R71: CORRECT completes on every word within capacity, with the word flipped at its error position, its own length, and that
error position; nothing else of the state changes. -/
def Obligations.CorrectResponse : Prop :=
  ∀ (s : State) (len : Nat) (din : Bitstring), WellFormed s.inst (.correct len din) = true → holdsWord s.inst len = true →
    let c := operand len din
    let syn := ((List.range (numPow2 len)).map (fun k => (xor (parity c (2 ^ k)) (bitAt c (2 ^ k))).toNat * 2 ^ k)).sum
    let e := if 1 ≤ syn ∧ syn ≤ len then syn else 0
    Gives s (.correct len din) (flipBit c e) len e

/-- R72, R73: with syndrome 0, and with a syndrome past the end, CORRECT gives its operand unchanged and error position 0; the
second happens only at a length not `2^K - 1` and to a word two or more flips away from every valid codeword. -/
def Obligations.CorrectLeavesUnchanged : Prop :=
  ∀ (s : State) (len : Nat) (din : Bitstring), WellFormed s.inst (.correct len din) = true → holdsWord s.inst len = true →
    (syndrome (operand len din) = 0 → Gives s (.correct len din) (operand len din) len 0) ∧
    (len < syndrome (operand len din) →
      Gives s (.correct len din) (operand len din) len 0 ∧ ¬ PerfectLength len ∧
      ∀ c : Bitstring, c.length = len → valid c = true → operand len din ≠ c ∧ ∀ q, operand len din ≠ flipBit c q)

/-- R75: CORRECT gives a valid codeword back with error position 0, and gives it back from any one flip with the position of
the flip, be it a parity or a data bit. -/
def Obligations.SingleErrorIsCorrected : Prop :=
  ∀ (s : State) (c : Bitstring) (len : Nat) (din : Bitstring), WellFormed s.inst (.correct len din) = true →
    holdsWord s.inst len = true → c.length = len → valid c = true →
    (operand len din = c → Gives s (.correct len din) c len 0) ∧
    ∀ q, 1 ≤ q → q ≤ len → operand len din = flipBit c q → Gives s (.correct len din) c len q

/-- R76: what CORRECT gives when any number of bits of a valid codeword were inverted; and the worked example, two flips of
`"1010101"`, whose result is a valid codeword other than the one sent. -/
def Obligations.MultipleErrorsResponse : Prop :=
  (∀ (s : State) (c : Bitstring) (qs : List Nat) (len : Nat) (din : Bitstring),
    WellFormed s.inst (.correct len din) = true → holdsWord s.inst len = true → c.length = len → valid c = true →
    qs.Nodup → (∀ q ∈ qs, 1 ≤ q ∧ q ≤ len) → operand len din = flipAll c qs →
    let e := if 1 ≤ xorOf qs ∧ xorOf qs ≤ len then xorOf qs else 0
    Gives s (.correct len din) (flipBit (flipAll c qs) e) len e) ∧
  flipAll [true, false, true, false, true, false, true] [1, 2] = [false, true, true, false, true, false, true] ∧
  correctResult [false, true, true, false, true, false, true] = ⟨[false, true, false, false, true, false, true], 7, 3⟩ ∧
  valid [false, true, false, false, true, false, true] = true

/-- R77: the result of CORRECT is stable: correcting it again changes nothing; either the result is valid or the operand was
not changed; and the result is valid exactly when the syndrome was within the length. -/
def Obligations.CorrectionIsStable : Prop :=
  ∀ (s : State) (len : Nat) (din : Bitstring), WellFormed s.inst (.correct len din) = true → holdsWord s.inst len = true →
    ∃ c2 e, Gives s (.correct len din) c2 len e ∧
      (∀ (s' : State) (din' : Bitstring), s'.inst = s.inst → WellFormed s'.inst (.correct len din') = true →
        operand len din' = c2 → Gives s' (.correct len din') c2 len 0) ∧
      (e ≠ 0 ∧ valid c2 = true ∨ e = 0 ∧ c2 = operand len din) ∧
      (valid c2 = true ↔ syndrome (operand len din) ≤ len)

/-- R78: the corner cases of length; and at a length whose last position is a parity position the last bit of a valid codeword
is 0. -/
def Obligations.CorrectCornerLengths : Prop :=
  correctResult [] = ⟨[], 0, 0⟩ ∧ correctResult [false] = ⟨[false], 1, 0⟩ ∧ correctResult [true] = ⟨[false], 1, 1⟩ ∧
  correctResult [false, false] = ⟨[false, false], 2, 0⟩ ∧ correctResult [true, false] = ⟨[false, false], 2, 1⟩ ∧
  correctResult [false, true] = ⟨[false, false], 2, 2⟩ ∧ correctResult [true, true] = ⟨[true, true], 2, 0⟩ ∧
  correctResult [false, false, false, true] = ⟨[false, false, false, false], 4, 4⟩ ∧
  correctResult (List.replicate 7 false ++ [true]) = ⟨List.replicate 8 false, 8, 8⟩ ∧
  ∀ s : Bitstring, isPow2 s.length = true → valid s = true → bitAt s s.length = false

/-- R97: the error position CORRECT reports is not 0 exactly when it changed the word; it is 0 alike for a valid word and for a
syndrome past the end. -/
def Obligations.ErrorPositionTellsCorrection : Prop :=
  ∀ (s : State) (len : Nat) (din : Bitstring), WellFormed s.inst (.correct len din) = true → holdsWord s.inst len = true →
    ∃ r, exec (.correct len din) s = .next { s with responses := s.responses ++ [r] } ∧
      (reportsCorrection r = true ↔ resultOf r ≠ operand len din) ∧
      (errposOf r = 0 ↔ valid (operand len din) = true ∨ len < syndrome (operand len din))

/-! ### Unit ENC and ENCODE (44_encode.md) -/

/-- R79: the interleaver's closed form: `EncLen(k)` bits, 0 in every parity slot, data bit `j` at the `j`-th data position. -/
def Obligations.LayoutClosedForm : Prop :=
  (∀ d : Bitstring, (layout d).length = encLen d.length ∧
    (∀ p ∈ parityPositions (encLen d.length), bitAt (layout d) p = false) ∧
    ∀ j, 1 ≤ j → j ≤ d.length → bitAt (layout d) (dataPosition j) = bitAt d j) ∧
  layout [true, false, true] = [false, false, true, false, false, true]

/-- R80: `EncLen(k)` is the least length with `k` data positions and is `k + r` for the least `r` with `2^r >= k + r + 1`,
the number of parity bits; it is strictly increasing and takes exactly the values 0 and those that are no power of two; and
the tables. -/
def Obligations.CodewordLength : Prop :=
  (∀ k, dataLen (encLen k) = k ∧ ∀ m, dataLen m = k → encLen k ≤ m) ∧ encLen 0 = 0 ∧
  (∀ k, 1 ≤ k → encLen k = k + numPow2 (encLen k) ∧ k + numPow2 (encLen k) + 1 ≤ 2 ^ numPow2 (encLen k) ∧
    ∀ r, k + r + 1 ≤ 2 ^ r → numPow2 (encLen k) ≤ r) ∧
  (∀ k m, k < m → encLen k < encLen m) ∧ (∀ n, (∃ k, encLen k = n) ↔ n = 0 ∨ isPow2 n = false) ∧
  (List.range 17).map encLen = [0, 3, 5, 6, 7, 9, 10, 11, 12, 13, 14, 15, 17, 18, 19, 20, 21] ∧
  [17, 18, 19, 20, 21, 22, 23, 24, 25, 26, 27, 32, 56, 57, 58, 64, 120, 121, 247, 248].map encLen =
    [22, 23, 24, 25, 26, 27, 28, 29, 30, 31, 33, 38, 62, 63, 65, 71, 127, 129, 255, 257]

/-- R81, R82: ENCODE completes on every data bitstring within capacity, with the layout's slots filled one after another,
ascending, each over the codeword as it stands, which is the parallel form, and the length `EncLen(len)`; nothing else of the state changes.  A longer
operand is refused, and on an unbounded instance every length is within capacity. -/
def Obligations.EncodeResponse : Prop :=
  ∀ (s : State) (len : Nat) (din : Bitstring), WellFormed s.inst (.encode len din) = true →
    let lay := layout (operand len din)
    let cw := (parityPositions lay.length).foldl (fun cw p => writeAt cw p (parity cw p)) lay
    (holdsData s.inst len = true →
      Gives s (.encode len din) cw lay.length 0 ∧ lay.length = encLen len ∧ cw = encodeParallel (operand len din)) ∧
    (holdsData s.inst len = false → exec (.encode len din) s = .refused .overCapacity) ∧
    (s.inst = .unbounded → holdsData s.inst len = true)

/-- R83, R84: filling the slots one after another in any order, whatever the placeholders hold, and filling them all at once
from the layout give the same codeword. -/
def Obligations.FillOrderIsNotObservable : Prop :=
  ∀ (d w : Bitstring) (slots : List Nat), w.length = encLen d.length →
    (∀ i ∈ dataPositions w.length, bitAt w i = bitAt (layout d) i) → slots.Perm (parityPositions w.length) →
    fillSlots slots w = encodeWord d ∧ encodeWord d = encodeParallel d

/-- R85: the length of a codeword, its data bits at the data positions, its validity; ENCODE is one-to-one on each length, and
its results are exactly the valid codewords of length `EncLen(k)`. -/
def Obligations.EncodeGivesTheValidCodewords : Prop :=
  (∀ d : Bitstring, (encodeWord d).length = encLen d.length ∧
    (∀ j, 1 ≤ j → j ≤ d.length → bitAt (encodeWord d) (dataPosition j) = bitAt d j) ∧ extract (encodeWord d) = d ∧
    syndrome (encodeWord d) = 0 ∧ correctResult (encodeWord d) = ⟨encodeWord d, (encodeWord d).length, 0⟩) ∧
  (∀ d e : Bitstring, d.length = e.length → encodeWord d = encodeWord e → d = e) ∧
  ∀ k (c : Bitstring), (∃ d : Bitstring, d.length = k ∧ encodeWord d = c) ↔ c.length = encLen k ∧ valid c = true

/-- R86: ENCODE is linear, and inverting data bit `j` inverts its position and the parity positions that cover it. -/
def Obligations.EncodeIsLinear : Prop :=
  (∀ d e : Bitstring, d.length = e.length → encodeWord (xorWord d e) = xorWord (encodeWord d) (encodeWord e)) ∧
  (∀ k, encodeWord (List.replicate k false) = List.replicate (encLen k) false) ∧
  ∀ (d : Bitstring) (j : Nat), 1 ≤ j → j ≤ d.length →
    encodeWord (flipBit d j) = flipAll (encodeWord d)
      (dataPosition j :: (parityPositions (encLen d.length)).filter (fun p => (dataPosition j &&& p) != 0))

/-- R87: a codeword of ENCODE never ends with a parity slot; where the last data bit lands just before a parity position, the
codeword stops there, and a slot appended would cover nothing. -/
def Obligations.CodewordEndsInData : Prop :=
  (∀ d : Bitstring, encodeWord d ≠ [] → isPow2 (encodeWord d).length = false) ∧
  (∀ d : Bitstring, d.length = 4 → (encodeWord d).length = 7) ∧ (∀ d : Bitstring, d.length = 11 → (encodeWord d).length = 15) ∧
  (∀ d : Bitstring, d.length = 26 → (encodeWord d).length = 31) ∧ (∀ d : Bitstring, d.length = 57 → (encodeWord d).length = 63) ∧
  ∀ d : Bitstring, encodeWord d ≠ [] → isPow2 ((encodeWord d).length + 1) = true →
    coverage ((encodeWord d).length + 1) ((encodeWord d).length + 1) = []

/-- R88: ENCODE of the empty data gives the empty codeword, with length and error position 0, on every instance and whatever the
wires of `din` hold, and DECODE of it the empty data; and the two codewords of one data bit. -/
def Obligations.EncodeEmptyAndOneBit : Prop :=
  (∀ (s : State) (din : Bitstring), WellFormed s.inst (.encode 0 din) = true → Gives s (.encode 0 din) [] 0 0) ∧
  (∀ (s : State) (din : Bitstring), WellFormed s.inst (.decode 0 din) = true → Gives s (.decode 0 din) [] 0 0) ∧
  encodeWord [false] = [false, false, false] ∧ encodeWord [true] = [true, true, true]

/-! ### DECODE (45_decode.md) -/

/-- R89: extraction keeps the bits at the data positions, in order, and undoes the layout of any word that agrees with it on the
data positions. -/
def Obligations.ExtractUndoesLayout : Prop :=
  (∀ s : Bitstring, (extract s).length = dataLen s.length ∧
    ∀ j, 1 ≤ j → j ≤ dataLen s.length → bitAt (extract s) j = bitAt s (dataPosition j)) ∧
  (∀ d : Bitstring, extract (layout d) = d) ∧
  (∀ d c : Bitstring, c.length = (layout d).length → (∀ i ∈ dataPositions c.length, bitAt c i = bitAt (layout d) i) →
    extract c = d) ∧
  extract [true, false, true, false, true, false, true] = [true, true, false, true]

/-- R90, R91: DECODE completes on every word within capacity, with the data bits of the word CORRECT gives, `DataLen(n)` of them,
and error position 0; nothing else of the state changes. -/
def Obligations.DecodeResponse : Prop :=
  ∀ (s : State) (len : Nat) (din : Bitstring), WellFormed s.inst (.decode len din) = true → holdsWord s.inst len = true →
    ∃ c2 e, Gives s (.correct len din) c2 len e ∧ Gives s (.decode len din) (extract c2) (len - numPow2 len) 0

/-- R92: DECODE without the intermediate word: a data bit is inverted on its way out exactly when the error position names its
position; with the error position 0 or a parity position the data bits come out as they stand. -/
def Obligations.DecodeWithoutCorrectedWord : Prop :=
  ∀ (s : State) (len : Nat) (din : Bitstring), WellFormed s.inst (.decode len din) = true → holdsWord s.inst len = true →
    Gives s (.decode len din)
      ((List.range' 1 (dataLen len)).map fun j =>
        xor (bitAt (operand len din) (dataPosition j)) (errPos (operand len din) == dataPosition j)) (dataLen len) 0 ∧
    (errPos (operand len din) = 0 ∨ isPow2 (errPos (operand len din)) = true →
      Gives s (.decode len din) (extract (operand len din)) (dataLen len) 0)

/-- R93: the round trip: DECODE gives the data back from the codeword ENCODE gave and from that codeword with any one bit
inverted. -/
def Obligations.RoundTripThroughOneFlip : Prop :=
  ∀ (s : State) (len : Nat) (din : Bitstring), WellFormed s.inst (.encode len din) = true → holdsData s.inst len = true →
    ∃ c : Bitstring, Gives s (.encode len din) c c.length 0 ∧
      ∀ (s' : State) (din' : Bitstring), s'.inst = s.inst → WellFormed s'.inst (.decode c.length din') = true →
        (operand c.length din' = c ∨ ∃ q, 1 ≤ q ∧ q ≤ c.length ∧ operand c.length din' = flipBit c q) →
        Gives s' (.decode c.length din') (operand len din) len 0

/-- R94: the corner cases of length. -/
def Obligations.DecodeCornerLengths : Prop :=
  decodeResult [] = ⟨[], 0, 0⟩ ∧ decodeResult [false] = ⟨[], 0, 0⟩ ∧ decodeResult [true] = ⟨[], 0, 0⟩ ∧
  (∀ a b, decodeResult [a, b] = ⟨[], 0, 0⟩) ∧ decodeResult [false, false, false] = ⟨[false], 1, 0⟩ ∧
  decodeResult [true, true, true] = ⟨[true], 1, 0⟩ ∧ decodeResult [true, true, false] = ⟨[true], 1, 0⟩ ∧
  decodeResult [false, false, false, true] = ⟨[false], 1, 0⟩ ∧
  decodeResult [false, false, true, true, false, false] = ⟨[true, false, false], 3, 0⟩ ∧
  decodeResult (List.replicate 7 false ++ [true]) = ⟨[false, false, false, false], 4, 0⟩ ∧
  ∀ n, isPow2 (n + 1) = true → dataLen (n + 1) = dataLen n

/-! ### Sizes, ports and requests (00_scope.md, 30_encoding.md) -/

/-- R6: the sizes that follow from `NMAX`; `LW` wires carry every number of `[0, NMAX]`; and the examples. -/
def Obligations.SizesFollowFromNmax : Prop :=
  (∀ nmax, 1 ≤ nmax → portWidth nmax = Nat.log2 nmax + 1 ∧ parityTrees nmax = portWidth nmax ∧
    parityTrees nmax = (parityPositions nmax).length ∧ dataCapacity nmax = nmax - numPow2 nmax ∧
    (∀ v, v ≤ nmax → v < 2 ^ portWidth nmax) ∧ (∀ n, n ≤ nmax → dataLen n ≤ dataCapacity nmax) ∧
    ∀ s : Bitstring, s.length ≤ nmax → syndrome s < 2 ^ portWidth nmax) ∧
  (∀ k, holdsData .unbounded k = true ∧ holdsWord .unbounded k = true) ∧
  [7, 15, 31, 63, 12].map portWidth = [3, 4, 5, 6, 4] ∧ [7, 15, 31, 63, 12].map parityTrees = [3, 4, 5, 6, 4] ∧
  [7, 15, 31, 63, 12].map dataCapacity = [4, 11, 26, 57, 8]

/-- R23: digit `k` of the syndrome is the mismatch bit of parity position `2^k`, and an integer port of an instance carries an
unsigned binary number exactly, wire `k` holding binary digit `k`. -/
def Obligations.PortsCarryExactNumbers : Prop :=
  (∀ (s : Bitstring) (k : Nat), k < numPow2 s.length → (syndrome s).testBit k = mismatch s (2 ^ k)) ∧
  ∀ nmax v, v ≤ nmax →
    (onPort (.bounded nmax) v).length = portWidth nmax ∧ ofDigits (onPort (.bounded nmax) v) = v ∧
    ∀ k, k < portWidth nmax → (onPort (.bounded nmax) v)[k]? = some (v.testBit k)

/-- R36: wires of `din` beyond `len` are ignored, and wires of `dout` beyond `len_out` are 0. -/
def Obligations.WiresBeyondTheLength : Prop :=
  (∀ (s : State) (r r' : Request) (rest : List Request), r.op = r'.op → r.len = r'.len → r.din.length = r'.din.length →
    r.din.take (lenOf r) = r'.din.take (lenOf r) →
    step { s with requests := r :: rest } = step { s with requests := r' :: rest }) ∧
  ∀ (s t : State) (r : Request) (rest : List Request), s.requests = r :: rest → step s = .next t →
    ∃ a, t.responses = s.responses ++ [a] ∧ (∀ i, lenOutOf a < i → bitAt a.dout i = false) ∧
      (s.inst = .unbounded → a.dout.length = lenOutOf a)

/-- R38, R39, R40, R41: the operation a request of the instance selects, by its code alone. -/
def Obligations.CodeSelectsOperation : Prop :=
  ∀ (inst : Instance) (r : Request), requestFits inst r = true →
    (r.op = 0b00#2 → decode inst r = .ok (.encode (lenOf r) r.din)) ∧
    (r.op = 0b01#2 → decode inst r = .ok (.decode (lenOf r) r.din)) ∧
    (r.op = 0b10#2 → decode inst r = .ok (.correct (lenOf r) r.din)) ∧
    (r.op = 0b11#2 → decode inst r = .error .reservedOp)

/-- R33: one evaluation, as the spec's `Exec` says it: the code is tested first, then the capacity, then the operation is
computed on the operand `din[1..len]`. -/
def Obligations.StepFollowsExec : Prop :=
  ∀ (s : State) (r : Request) (rest : List Request), s.requests = r :: rest → requestFits s.inst r = true →
    let c := r.din.take (lenOf r)
    let give := fun res : Result => Host.Outcome.next { s with requests := rest, responses := s.responses ++ [drive s.inst res] }
    step s =
      if r.op = 0b11#2 then .refused .reservedOp
      else if r.op = 0b00#2 ∧ holdsData s.inst (lenOf r) = false then .refused .overCapacity
      else if r.op ≠ 0b00#2 ∧ holdsWord s.inst (lenOf r) = false then .refused .overCapacity
      else if r.op = 0b00#2 then give (encodeResult c)
      else if r.op = 0b01#2 then give (decodeResult c)
      else give (correctResult c)

/-- R41, R101: a request with the reserved code is refused as such, whatever its other ports hold, over capacity or not. -/
def Obligations.ReservedCodeIsRefused : Prop :=
  ∀ (s : State) (r : Request) (rest : List Request), s.requests = r :: rest → r.op = 0b11#2 → step s = .refused .reservedOp

/-- R42: a length over capacity is refused, and within it never; the capacity of ENCODE is that the codeword fits the bus; an
unbounded instance never refuses for capacity. -/
def Obligations.CapacityRule : Prop :=
  (∀ (s : State) (i : Instr), exec i s = .refused .overCapacity ↔ withinCapacity s.inst i = false) ∧
  (∀ nmax len din, withinCapacity (.bounded nmax) (.encode len din) = true ↔ len ≤ dataCapacity nmax) ∧
  (∀ nmax len din, withinCapacity (.bounded nmax) (.decode len din) = true ↔ len ≤ nmax) ∧
  (∀ nmax len din, withinCapacity (.bounded nmax) (.correct len din) = true ↔ len ≤ nmax) ∧
  (∀ nmax len, len ≤ dataCapacity nmax ↔ encLen len ≤ nmax) ∧ ∀ i, withinCapacity .unbounded i = true

/-- R34, R35, R44: a call stands for the request whose instruction has the call's operation and operand, a text with any
character but '0' and '1' stands for none, and a result is written back as it was read. -/
def Obligations.CallStandsForRequest : Prop :=
  (∀ (inst : Instance) (op : OpName) (s : Bitstring), holdsWord inst s.length = true →
    ∃ r i, requestOfCall inst op (textOfBits s) = some r ∧ lenOf r = s.length ∧ decode inst r = .ok i ∧ i.opName = op ∧
      operand i.len i.din = s) ∧
  (∀ text, (bitsOfText text).isSome = true ↔ ∀ ch ∈ text, ch = '0' ∨ ch = '1') ∧
  (∀ s, bitsOfText (textOfBits s) = some s) ∧ ∀ text s, bitsOfText text = some s → textOfBits s = text

/-- Decoding the request of a well-formed instruction gives the instruction back, on every instance. -/
def Obligations.DecodeOfEncode : Prop :=
  ∀ (inst : Instance) (i : Instr), WellFormed inst i = true → decode inst (encode inst i) = .ok i

/-- A request decodes to at most one instruction, which is well formed, and that instruction's request is the one decoded. -/
def Obligations.EncodeOfDecode : Prop :=
  ∀ (inst : Instance) (r : Request) (i : Instr), decode inst r = .ok i → WellFormed inst i = true ∧ encode inst i = r

/-- The codes of the table, written out from R38 to R41, decode to the operations they stand for, on the empty operand of an
unbounded instance; a request written out wire by wire on an instance of size 7 does too. -/
def Obligations.WrittenWordsDecode : Prop :=
  decodeTableWord 8 0b00 = some (.encode 0 []) ∧ decodeTableWord 8 0b01 = some (.decode 0 []) ∧
  decodeTableWord 8 0b10 = some (.correct 0 []) ∧ decodeTableWord 8 0b11 = none ∧
  decode (.bounded 7) ⟨0b10#2, [false, true, true], [false, false, true, true, false, false, true]⟩ =
    .ok (.correct 6 [false, false, true, true, false, false, true])

/-! ### The machine (10_state.md, 20_memory.md, 60_exceptions.md, 70_reset_and_hazards.md) -/

/-- A step takes the oldest request and executes the instruction it decodes to; a word of the table presented next is executed
as its operation on the empty operand. -/
def Obligations.StepExecutesDecodedRequest : Prop :=
  (∀ (s : State) (r : Request) (rest : List Request) (i : Instr), s.requests = r :: rest → decode s.inst r = .ok i →
    step s = exec i { s with requests := rest }) ∧
  (∀ (s : State) (nbits : Nat), step (s.withFetchWord nbits 0b00) = exec (.encode 0 (onBus s.inst [])) s ∧
    step (s.withFetchWord nbits 0b01) = exec (.decode 0 (onBus s.inst [])) s ∧
    step (s.withFetchWord nbits 0b10) = exec (.correct 0 (onBus s.inst [])) s)

/-- Frame of the three operations: an instruction that answers a next state adds one response and changes nothing else; a step
that does also takes the oldest request. -/
def Obligations.OnlyOneResponseIsAdded : Prop :=
  (∀ (i : Instr) (s t : State), exec i s = .next t →
    t.inst = s.inst ∧ t.requests = s.requests ∧ ∃ r, t.responses = s.responses ++ [r]) ∧
  ∀ (s t : State), step s = .next t →
    t.inst = s.inst ∧ (∃ r, s.requests = r :: t.requests) ∧ ∃ r, t.responses = s.responses ++ [r]

/-- R17: the response of an evaluation is a function of that evaluation's request and of the instance parameter alone. -/
def Obligations.ResponseDependsOnRequestAlone : Prop :=
  ∀ (s s' : State) (r : Request) (rest rest' : List Request), s.inst = s'.inst → s.requests = r :: rest →
    s'.requests = r :: rest' →
    (∀ t, step s = .next t → ∃ t' a, step s' = .next t' ∧ t.responses = s.responses ++ [a] ∧
      t'.responses = s'.responses ++ [a]) ∧
    (∀ e, step s = .refused e → step s' = .refused e)

/-- R29: any number of requests, in any order, are answered each as if it were the only one ever issued. -/
def Obligations.RequestsAreIndependent : Prop :=
  (∀ s : State, (∀ r ∈ s.requests, accepted s.inst r = true) →
    core.run s.requests.length s =
      .next { s with requests := [], responses := s.responses ++ s.requests.flatMap (responsesAlone s.inst) }) ∧
  (∀ (inst : Instance) (r : Request), accepted inst r = true → (responsesAlone inst r).length = 1) ∧
  ∀ (inst : Instance) (rs rs' : List Request) (t : State), rs.Perm rs' →
    core.run rs.length { inst := inst, requests := rs, responses := [] } = .next t →
    ∃ t', core.run rs'.length { inst := inst, requests := rs', responses := [] } = .next t' ∧ t.responses.Perm t'.responses

/-- R99: every operation gives a response for every operand within capacity, of every length, and never faults; the empty
operand gives an empty result and error position 0. -/
def Obligations.TotalWithinCapacity : Prop :=
  (∀ (s : State) (i : Instr), WellFormed s.inst i = true → withinCapacity s.inst i = true →
    ∃ dout lenOut errpos, Gives s i dout lenOut errpos) ∧
  (∀ (s : State) (i : Instr) (f : Fault), exec i s ≠ .fault f) ∧
  ∀ (s : State) (i : Instr), WellFormed s.inst i = true → i.len = 0 → Gives s i [] 0 0

/-- A step answers a next state exactly where the oldest request is accepted.  The refusals with no request and with wires that
are not the instance's are the model's own choice (log 3, log 5); the other two are those of 60_exceptions.md. -/
def Obligations.StepAnswersExactlyAccepted : Prop :=
  (∀ s : State, (∃ t, step s = .next t) ↔ ∃ r rest, s.requests = r :: rest ∧ accepted s.inst r = true) ∧
  ∀ (s : State) (r : Request) (rest : List Request), s.requests = r :: rest → requestFits s.inst r = true →
    ∀ e, step s = .refused e → (e = .reservedOp ∧ r.op = 0b11#2) ∨ (e = .overCapacity ∧ r.op ≠ 0b11#2)

/-- 60_exceptions.md sections 1 and 2: nothing is raised, saved or diverted.  An accepted request completes whatever its operand
is; the one change besides its being taken is a response on the wires of the instance; what the operation found is in that
response, CORRECT's error position and 0 for the other two; and the request behind it is evaluated next, with the response it
gets alone.  The queue, answered oldest first, is the model's (log 2, log 4). -/
def Obligations.NothingIsRaised : Prop :=
  ∀ (s : State) (r : Request) (rest : List Request), s.requests = r :: rest → accepted s.inst r = true →
    ∃ a, step s = .next { s with requests := rest, responses := s.responses ++ [a] } ∧ responseFits s.inst a = true ∧
      errposOf a = (if r.op = 0b10#2 then errPos (r.din.take (lenOf r)) else 0) ∧
      ∀ (q : Request) (more : List Request), rest = q :: more → accepted s.inst q = true →
        ∃ b, responsesAlone s.inst q = [b] ∧
          step { s with requests := rest, responses := s.responses ++ [a] } =
            .next { s with requests := more, responses := s.responses ++ [a, b] }

/-- Every step keeps the wires of a legal instance: the requests still fit its input ports, and every response its output
ports, with its length on the bus, its error position in `[0, len_out]` and 0 on every spare wire. -/
def Obligations.StepKeepsWires : Prop :=
  ∀ s t : State, s.wf = true → step s = .next t → t.wf = true

/-- R18, R106, R107: after reset nothing is presented and nothing has been given; the first evaluation obeys the same rules as
any other.  The instance at reset, `unbounded`, is the model's choice (log 1), and so are the empty queues (log 2). -/
def Obligations.ResetHoldsNothing : Prop :=
  State.reset.wf = true ∧ State.reset.requests = [] ∧ State.reset.responses = [] ∧ State.reset.inst = .unbounded ∧
  ∀ r : Request, accepted .unbounded r = true →
    ∃ a, step (State.reset.present r) = .next { State.reset with responses := [a] } ∧ responsesAlone .unbounded r = [a]
end

