-- ==== Sys2Proof/Laws/Bits.lean ====
section
/-! SUPPORT. Reading and writing by position, exclusive or of a list, and the digits of a number. -/

namespace Sys2Proof.Machine

@[simp] theorem mem_positions (n i : Nat) : i ∈ positions n ↔ 1 ≤ i ∧ i ≤ n := by
  simp only [positions, List.mem_range'_1]; omega

@[simp] theorem length_positions (n : Nat) : (positions n).length = n := by simp [positions]

theorem positions_succ (n : Nat) : positions (n + 1) = positions n ++ [n + 1] := by
  simp [positions, List.range'_concat, Nat.add_comm]

theorem positions_pairwise (n : Nat) : (positions n).Pairwise (· < ·) := List.pairwise_lt_range'

@[simp] theorem bitAt_zero (s : Bitstring) : bitAt s 0 = false := rfl
@[simp] theorem bitAt_succ (s : Bitstring) (i : Nat) : bitAt s (i + 1) = s.getD i false := rfl

theorem bitAt_past_the_end (s : Bitstring) (i : Nat) (h : s.length < i) : bitAt s i = false := by
  obtain _ | i := i
  · rfl
  · simp only [bitAt_succ]; exact List.getD_eq_default _ _ (by omega)

/-- Two words of one length with the same bit at every position are equal. -/
theorem ext_bitAt {s t : Bitstring} (hl : s.length = t.length)
    (h : ∀ i, 1 ≤ i → i ≤ s.length → bitAt s i = bitAt t i) : s = t := by
  refine List.ext_getElem hl fun i hs ht => ?_
  have := h (i + 1) (by omega) (by omega)
  simpa [List.getD_eq_getElem?_getD, List.getElem?_eq_getElem, hs, ht] using this

@[simp] theorem length_writeAt (s : Bitstring) (i : Nat) (v : Bit) : (writeAt s i v).length = s.length := by
  cases i <;> simp [writeAt]

/-- A read after a write of the same position gives the bit written. -/
theorem bitAt_writeAt_same (s : Bitstring) (i : Nat) (v : Bit) (h1 : 1 ≤ i) (hn : i ≤ s.length) :
    bitAt (writeAt s i v) i = v := by
  obtain ⟨j, rfl⟩ : ∃ j, i = j + 1 := ⟨i - 1, by omega⟩
  have hj : j < s.length := hn
  simp [writeAt, List.getD_eq_getElem?_getD, hj]

/-- A write leaves every other position alone. -/
theorem bitAt_writeAt_other (s : Bitstring) (i j : Nat) (v : Bit) (h : j ≠ i) : bitAt (writeAt s i v) j = bitAt s j := by
  obtain _ | i := i
  · rfl
  · obtain _ | j := j
    · rfl
    · have : i ≠ j := by omega
      simp [writeAt, List.getD_eq_getElem?_getD, this]

@[simp] theorem xorAll_nil : xorAll [] = false := rfl
@[simp] theorem xorAll_cons (b : Bit) (bs : List Bit) : xorAll (b :: bs) = xor b (xorAll bs) := rfl

theorem xorAll_append (a b : List Bit) : xorAll (a ++ b) = xor (xorAll a) (xorAll b) := by
  induction a with
  | nil => simp
  | cons x xs ih => simp [ih]

@[simp] theorem length_digits (w v : Nat) : (digits w v).length = w := by simp [digits]

theorem digits_succ (w v : Nat) : digits (w + 1) v = v.testBit 0 :: digits w (v / 2) := by
  simp [digits, List.range_succ_eq_map, List.map_map, Function.comp_def, Nat.testBit_succ]

theorem ofDigits_lt (ds : Digits) : ofDigits ds < 2 ^ ds.length := by
  induction ds with
  | nil => simp [ofDigits]
  | cons d ds ih =>
    have : d.toNat ≤ 1 := by cases d <;> simp
    simp only [ofDigits, List.length_cons, Nat.pow_succ]; omega

/-- A number carried on enough wires is read back exactly. -/
theorem ofDigits_digits (w v : Nat) (h : v < 2 ^ w) : ofDigits (digits w v) = v := by
  induction w generalizing v with
  | zero => simp at h; simp [digits, ofDigits, h]
  | succ w ih =>
    rw [digits_succ, ofDigits, ih (v / 2) (by rw [Nat.pow_succ] at h; omega)]
    have : (v.testBit 0).toNat = v % 2 := by
      rw [Nat.testBit_zero]; rcases Nat.mod_two_eq_zero_or_one v with h | h <;> simp [h]
    omega

/-- Wires read as a number and written back are the same wires. -/
theorem digits_ofDigits (ds : Digits) : digits ds.length (ofDigits ds) = ds := by
  induction ds with
  | nil => rfl
  | cons d ds ih =>
    rw [List.length_cons, digits_succ, ofDigits]
    have hd : (d.toNat + 2 * ofDigits ds) / 2 = ofDigits ds := by cases d <;> simp; omega
    rw [hd, ih, Nat.testBit_zero]
    cases d <;> simp [Nat.add_mul_mod_self_left]

@[simp] theorem length_textOfBits (s : Bitstring) : (textOfBits s).length = s.length := by simp [textOfBits]

end Sys2Proof.Machine
end

