-- ==== Sys2Proof/Laws/Classifier.lean ====
section
/-! SUPPORT. Membership in the position lists, and the counts one position further. -/

namespace Sys2Proof.Machine

theorem numPow2_zero : numPow2 0 = 0 := rfl

/-- The count of parity positions rises by one exactly at a parity position. -/
theorem numPow2_succ (n : Nat) : numPow2 (n + 1) = numPow2 n + (isPow2 (n + 1)).toNat := by
  cases h : isPow2 (n + 1) <;> simp [numPow2, positions_succ, h]

theorem numPow2_le (n : Nat) : numPow2 n ≤ n := by
  simpa [numPow2] using List.countP_le_length (p := isPow2) (l := positions n)

theorem mem_dataPositions (n i : Nat) : i ∈ dataPositions n ↔ (1 ≤ i ∧ i ≤ n) ∧ isPow2 i = false := by
  simp [dataPositions]

theorem dataPositions_succ (n : Nat) :
    dataPositions (n + 1) = if isPow2 (n + 1) then dataPositions n else dataPositions n ++ [n + 1] := by
  cases h : isPow2 (n + 1) <;> simp [dataPositions, positions_succ, List.filter_append, h]

theorem mem_coverage (p n i : Nat) : i ∈ coverage p n ↔ (1 ≤ i ∧ i ≤ n) ∧ i ≠ p ∧ i &&& p ≠ 0 := by
  simp [coverage]

/-- The parity reads the bits of the coverage set and nothing else. -/
theorem parity_congr {s t : Bitstring} (p : Nat) (hl : s.length = t.length)
    (h : ∀ i ∈ coverage p s.length, bitAt s i = bitAt t i) : parity s p = parity t p := by
  unfold parity
  rw [← hl, List.map_congr_left h]

end Sys2Proof.Machine
end

