-- ==== Sys2Proof/Laws/State.lean ====
section
/-! SUPPORT. One lemma for each field of the state under each operation that builds a state. -/

namespace Sys2Proof.Machine

@[simp] theorem reset_inst : State.reset.inst = .unbounded := rfl
@[simp] theorem reset_requests : State.reset.requests = [] := rfl
@[simp] theorem reset_responses : State.reset.responses = [] := rfl

@[simp] theorem present_inst (s : State) (r : Request) : (s.present r).inst = s.inst := rfl
@[simp] theorem present_requests (s : State) (r : Request) : (s.present r).requests = r :: s.requests := rfl
@[simp] theorem present_responses (s : State) (r : Request) : (s.present r).responses = s.responses := rfl

@[simp] theorem withFetchWord_inst (s : State) (nbits w : Nat) : (s.withFetchWord nbits w).inst = s.inst := rfl
@[simp] theorem withFetchWord_requests (s : State) (nbits w : Nat) :
    (s.withFetchWord nbits w).requests = requestOfTableWord s.inst w :: s.requests := rfl
@[simp] theorem withFetchWord_responses (s : State) (nbits w : Nat) :
    (s.withFetchWord nbits w).responses = s.responses := rfl

@[simp] theorem drive_dout (inst : Instance) (r : Result) : (drive inst r).dout = onBus inst r.dout := rfl
@[simp] theorem drive_lenOut (inst : Instance) (r : Result) : (drive inst r).lenOut = onPort inst r.lenOut := rfl
@[simp] theorem drive_errpos (inst : Instance) (r : Result) : (drive inst r).errpos = onPort inst r.errpos := rfl

end Sys2Proof.Machine
end

