-- ==== Sys2Proof/Laws/Ops.lean ====
section
/-! SUPPORT. What each shared operation can do, said once. -/

namespace Sys2Proof.Machine

/-- A request is taken exactly when one is presented, and then it is the oldest. -/
theorem fetch_eq_some (s s' : State) (r : Request) :
    s.fetch = some (r, s') ↔ s.requests = r :: s'.requests ∧ s'.inst = s.inst ∧ s'.responses = s.responses := by
  obtain ⟨inst, reqs, resps⟩ := s
  obtain ⟨inst', reqs', resps'⟩ := s'
  cases reqs with
  | nil => simp [State.fetch]
  | cons q qs => simp [State.fetch]; tauto

theorem fetch_eq_none (s : State) : s.fetch = none ↔ s.requests = [] := by
  unfold State.fetch; split <;> simp_all

/-- An answer is a next state exactly for a response, which is then the only change. -/
theorem answer_eq_next (s t : State) (x : Except Refusal Response) :
    s.answer x = .next t ↔ ∃ r, x = .ok r ∧ t = { s with responses := s.responses ++ [r] } := by
  cases x with
  | error e => simp [State.answer]
  | ok r => simp [State.answer, eq_comm]

theorem answer_eq_refused (s : State) (x : Except Refusal Response) (e : Refusal) :
    s.answer x = .refused e ↔ x = .error e := by
  cases x <;> simp [State.answer]

theorem answer_ne_fault (s : State) (x : Except Refusal Response) (f : Fault) : s.answer x ≠ .fault f := nomatch f

/-- A response is given exactly within capacity, and it is the result on the ports. -/
theorem respond_eq_ok (inst : Instance) (within : Bool) (r : Result) (a : Response) :
    respond inst within r = .ok a ↔ within = true ∧ a = drive inst r := by
  cases within <;> simp [respond, eq_comm]

theorem respond_eq_error (inst : Instance) (within : Bool) (r : Result) (e : Refusal) :
    respond inst within r = .error e ↔ within = false ∧ e = .overCapacity := by
  cases within <;> simp [respond, eq_comm]

@[simp] theorem length_onPort (inst : Instance) (v : Nat) : (onPort inst v).length = lenWires inst v := by simp [onPort]

/-- A bus has the wires of the instance, for a bitstring it can carry. -/
theorem length_onBus (inst : Instance) (s : Bitstring) (h : holdsWord inst s.length = true) :
    (onBus inst s).length = busWires inst s.length := by
  cases inst <;> simp_all [onBus, busWires, holdsWord]

/-- The first wires of a bus carry the bitstring. -/
@[simp] theorem take_onBus (inst : Instance) (s : Bitstring) : (onBus inst s).take s.length = s := by simp [onBus]

end Sys2Proof.Machine
end

