-- ==== Sys2Proof/Laws/PerInstr.lean ====
section
/-! SUPPORT. The family EncodeFits: the request of a well-formed instruction has the wires of the instance, and its ports read
back as the instruction's operands. -/

namespace Sys2Proof.Laws.EncodeFits

open Sys2Proof.Machine

/-- The request of the instruction fits the instance, and its `len` port reads back as the instruction's length. -/
def Statement (i : Instr) : Prop :=
  ∀ inst, WellFormed inst i = true → lenOf (Sys2Proof.encode inst i) = i.len ∧
    lenPortFits inst (Sys2Proof.encode inst i) = true ∧ dinPortFits inst (Sys2Proof.encode inst i) = true

/-- The argument is the same for every operation: only the code differs. -/
theorem of_ports (i : Instr) : Statement i := by
  intro inst h
  obtain ⟨hl, hd⟩ : i.lenFits inst = true ∧ i.dinFits inst = true := by simpa [WellFormed] using h
  have hlen : lenOf (Sys2Proof.encode inst i) = i.len := ofDigits_digits _ _ (by simpa [Instr.lenFits] using hl)
  refine ⟨hlen, ?_, ?_⟩
  · rw [lenPortFits, hlen]; simp [Sys2Proof.encode]
  · rw [dinPortFits, hlen]; exact hd

theorem encode (len : Nat) (din : Bitstring) : Statement (.encode len din) := of_ports _
theorem decode (len : Nat) (din : Bitstring) : Statement (.decode len din) := of_ports _
theorem correct (len : Nat) (din : Bitstring) : Statement (.correct len din) := of_ports _

end Sys2Proof.Laws.EncodeFits
end

