-- ==== Sys2Proof/Tests/Slice0.lean ====
section
/-! SUPPORT. Tests on the spec's own examples and vectors (95_test_vectors.md and the worked examples of the rules), the smoke
test of WellFormed, and for every statement with hypotheses a state and operands that meet them. -/

namespace Sys2Proof.Tests

open Sys2Proof Sys2Proof.Machine

/-- A bitstring written as the spec's text form, position 1 first. -/
def bits (text : String) : Bitstring := text.toList.map (fun ch => ch == '1')

/-- A state of one instance with nothing presented and nothing given. -/
def on (inst : Instance) : State where
  inst := inst
  requests := []
  responses := []

/-- What a call answers on an instance, as text and error position. -/
def call (inst : Instance) (op : OpName) (text : String) : List (Bitstring × Nat) :=
  match requestOfCall inst op text.toList with
  | none => []
  | some r => (responsesAlone inst r).map (fun a => (resultOf a, errposOf a))

/-- The wires of the one response to a request on the instance of size 7: `dout[1..7]`, `len_out` and `errpos`. -/
def wires7 (op : OpCode) (len : Nat) (din : String) : List (Bitstring × Nat × Nat) :=
  (responsesAlone (.bounded 7) ⟨op, digits 3 len, bits din⟩).map (fun a => (a.dout, lenOutOf a, errposOf a))

/-- The refusal an outcome is, if it is one. -/
def refusalOfAnswer : Answer → Option Refusal
  | .next _ => none
  | .fault _ => none
  | .refused e => some e

/-- The refusal a request alone on an instance meets. -/
def refusalAlone (inst : Instance) (r : Request) : Option Refusal := refusalOfAnswer (step (State.only inst r))

/-! ### Decoding, from the encodings of 30_encoding.md R31, R38 to R41 -/

/-- ENCODE is `op = 0b00`; three data bits on the instance of size 7: `len[2:0] = 0b011`, wire 0 first. -/
theorem test_decode_encode_word : decode (.bounded 7) ⟨0b00#2, [true, true, false], bits "1101111"⟩ =
    .ok (.encode 3 (bits "1101111")) := by rfl

/-- DECODE is `op = 0b01`; `len[2:0] = 0b110`. -/
theorem test_decode_decode_word : decode (.bounded 7) ⟨0b01#2, [false, true, true], bits "0110101"⟩ =
    .ok (.decode 6 (bits "0110101")) := by rfl

/-- CORRECT is `op = 0b10`; `len[3:0] = 0b1100` on the instance of size 12. -/
theorem test_decode_correct_word : decode (.bounded 12) ⟨0b10#2, [false, false, true, true], bits "111111111111"⟩ =
    .ok (.correct 12 (bits "111111111111")) := by rfl

/-- The four words of the table: three operations and the reserved code. -/
theorem test_decode_table_words : [0, 1, 2, 3].map (decodeTableWord 8) =
    [some (.encode 0 []), some (.decode 0 []), some (.correct 0 []), none] := by decide

/-- The decoder rejects by name: the code first, then the wires of `len`, then the wires of `din`. -/
theorem test_decode_rejects_by_name :
    decode (.bounded 7) ⟨0b11#2, [true], []⟩ = .error .reservedOp ∧
    decode (.bounded 7) ⟨0b00#2, [true, true], bits "1101111"⟩ = .error .lenPort ∧
    decode (.bounded 7) ⟨0b00#2, [true, true, false], bits "110111"⟩ = .error .dinPort ∧
    decode .unbounded ⟨0b10#2, [true, true], bits "11"⟩ = .error .dinPort ∧
    decode .unbounded ⟨0b10#2, [true, false], bits "1"⟩ = .error .lenPort := ⟨rfl, rfl, rfl, rfl, rfl⟩

/-! ### The smoke test of WellFormed: each check refuses an ill-formed term -/

theorem smoke_lenFits_refuses : (Instr.correct 8 (bits "1010101")).lenFits (.bounded 7) = false := by decide
theorem smoke_dinFits_refuses : (Instr.correct 7 (bits "101010")).dinFits (.bounded 7) = false ∧
    (Instr.encode 3 (bits "10")).dinFits .unbounded = false := by decide
theorem smoke_wellFormed_refuses : WellFormed (.bounded 7) (.correct 8 (bits "1010101")) = false ∧
    WellFormed (.bounded 7) (.correct 7 (bits "101010")) = false ∧
    WellFormed (.bounded 7) (.correct 7 (bits "1010101")) = true := by decide

/-! ### The units -/

/-- CLS: 40_classifier.md R51, and 20_memory.md R20's map of the first 32 positions. -/
theorem test_classifier_map : (positions 64).filter isPow2 = [1, 2, 4, 8, 16, 32, 64] ∧
    isPow2 (2 ^ 40) = true ∧ isPow2 (2 ^ 40 + 1) = false ∧ isPar 8 = bits "11010001" ∧
    dataPositions 32 = [3, 5, 6, 7, 9, 10, 11, 12, 13, 14, 15, 17, 18, 19, 20, 21, 22, 23, 24, 25, 26, 27, 28, 29, 30, 31] := by
  decide

/-- PGEN: 95_test_vectors.md section 2.2. -/
theorem test_parity_vectors : parityVector (bits "001001") = bits "101" ∧ parityVector (bits "110110") = bits "101" ∧
    parityVector (bits "0010") = bits "110" ∧ parityVector (bits "000000001") = bits "1001" ∧
    parityVector (bits "001001101000000") = bits "1101" := by decide

/-- SYN: 95_test_vectors.md section 2.3: the digit order, and syndromes past the end. -/
theorem test_syndromes : mismatchVector (bits "1000101") = bits "110" ∧ syndrome (bits "1000101") = 3 ∧
    syndrome (bits "101100") = 6 ∧ syndrome (bits "001100") = 7 ∧ errPos (bits "001100") = 0 ∧
    syndrome (bits "010000010") = 10 ∧ errPos (bits "010000010") = 0 ∧ syndrome (bits "111111111") = 1 := by decide

/-- The internal nets of program P4, step 7 (95_test_vectors.md section 3.4), and the codeword lengths of section 2.5. -/
theorem test_internal_nets : layout (bits "1101") = bits "0010101" ∧ parityVector (bits "1010111") = bits "111" ∧
    mismatchVector (bits "1010111") = bits "011" ∧ flipMask 7 (errPos (bits "1010111")) = bits "0000010" ∧
    [4, 5, 11, 12, 26, 27].map encLen = [7, 9, 15, 17, 31, 33] := by decide

/-! ### The operations, one step each -/

/-- ENCODE as calls: scenarios S9, S12 and the lengths around a power of two (95_test_vectors.md sections 1.2, 2.5). -/
theorem test_encode_calls : call .unbounded .encode "101" = [(bits "101101", 0)] ∧
    call .unbounded .encode "" = [([], 0)] ∧ call .unbounded .encode "1011" = [(bits "0110011", 0)] ∧
    call .unbounded .encode "10111000000" = [(bits "111001111000000", 0)] ∧
    call .unbounded .encode "101110000001" = [(bits "01100111100000011", 0)] := by decide

/-- ENCODE wire by wire on the instance of size 7 (section 2.7): spare input wires ignored, spare output wires 0, and the
capacity. -/
theorem test_encode_wires : wires7 0b00#2 3 "1011111" = [(bits "1011010", 6, 0)] ∧
    wires7 0b00#2 3 "1101111" = [(bits "0111100", 6, 0)] ∧ wires7 0b00#2 4 "1101010" = [(bits "1010101", 7, 0)] ∧
    refusalAlone (.bounded 7) ⟨0b00#2, digits 3 5, bits "1101011"⟩ = some .overCapacity := by decide

/-- CORRECT as calls: scenarios S10, S11, a flip past the end, two flips, and odd lengths (sections 1.2, 2.4). -/
theorem test_correct_calls : call .unbounded .correct "1010101" = [(bits "1010101", 0)] ∧
    call .unbounded .correct "1000101" = [(bits "1010101", 3)] ∧ call .unbounded .correct "001100" = [(bits "001100", 0)] ∧
    call .unbounded .correct "111001" = [(bits "111000", 6)] ∧
    call .unbounded .correct "0000000000000001" = [(bits "0000000000000000", 16)] := by decide

/-- CORRECT wire by wire (section 2.7): a syndrome past the end, and the capacity of the instance of size 12. -/
theorem test_correct_wires : wires7 0b10#2 6 "0011001" = [(bits "0011000", 6, 0)] ∧
    wires7 0b10#2 7 "1010111" = [(bits "1010101", 7, 6)] ∧
    refusalAlone (.bounded 12) ⟨0b10#2, digits 4 13, bits "000000000000"⟩ = some .overCapacity := by decide

/-- DECODE as calls (section 2.6): a restored data bit, a corrected parity bit, and a wrongly inverted data bit. -/
theorem test_decode_calls : call .unbounded .decode "1000101" = [(bits "1101", 0)] ∧
    call .unbounded .decode "011001110" = [(bits "10110", 0)] ∧ call .unbounded .decode "0110101" = [(bits "0101", 0)] ∧
    call .unbounded .decode "1100001" = [(bits "0001", 0)] ∧ call .unbounded .decode "01" = [([], 0)] := by decide

/-- DECODE wire by wire (program P4 step 4, section 2.7). -/
theorem test_decode_wires : wires7 0b01#2 6 "0110101" = [(bits "1100000", 3, 0)] ∧
    wires7 0b01#2 7 "1000101" = [(bits "1101000", 4, 0)] ∧ wires7 0b01#2 2 "0100000" = [(bits "0000000", 0, 0)] := by decide

/-- The reserved code is refused as such, over capacity or not (section 2.7), and without a request there is no evaluation. -/
theorem test_refusals : refusalAlone (.bounded 7) ⟨0b11#2, digits 3 7, bits "1010101"⟩ = some .reservedOp ∧
    refusalAlone (.bounded 12) ⟨0b11#2, digits 4 13, bits "000000000000"⟩ = some .reservedOp ∧
    refusalOfAnswer (step State.reset) = some .noRequest := by decide

/-- A word of the table presented after reset is run, and a text with another character is no call (30_encoding.md R35). -/
theorem test_first_request : responsesOf (step (State.reset.withFetchWord 8 0b10)) = [⟨[], [], []⟩] ∧
    requestOfCall .unbounded .encode "10x".toList = none ∧
    (responsesAlone .unbounded ⟨0b10#2, digits 3 7, bits "1000101"⟩).map callResult = [("1010101".toList, 3)] := by decide

/-! ### Witnesses: a state and operands that meet the hypotheses of each statement -/

theorem witness_ClassifierIsPowerOfTwo : 1 ≤ 1 ∧ isPow2 1 = true ∧ 1 ≤ 3 ∧ isPow2 3 = false := by decide
theorem witness_ClassifierFormsAgree : 1 ≤ 4 ∧ 4 < 2 ^ (4 - 1) ∧ 4 < 2 ^ 3 ∧ 1 ∈ positions 1 := by decide
theorem witness_ClassifierUpToSixtyFour : 1 ≤ 64 ∧ 64 ≤ 64 ∧ isPow2 64 = true := by decide
theorem witness_PositionCounts : 1 ≤ 1 ∧ dataLen 1 = dataLen 0 ∧ dataLen 3 = dataLen 2 + 1 := by decide
theorem witness_DataBitPosition : 1 ≤ 1 ∧ dataPosition 1 = 3 := by decide
theorem witness_ParityCoverage : 2 ∈ parityPositions 6 ∧ 3 ∈ coverage 2 6 ∧ 17 ∈ coverage (2 ^ 4) 31 := by decide
theorem witness_NoParityPositionIsCovered : 4 ∈ parityPositions 4 ∧ 2 ∈ parityPositions 4 ∧ 3 ∈ dataPositions 4 ∧
    (bits "111").length = (bits "001").length ∧ ∀ i ∈ dataPositions 3, bitAt (bits "111") i = bitAt (bits "001") i := by decide
theorem witness_ParityVectorEntries : 2 < 3 ∧ (coverage (2 ^ 2) (2 ^ 3 - 1)).length = 3 := by decide
theorem witness_EmptyCoverage : 1 ∈ parityPositions 2 ∧ coverage 1 2 = [] ∧ 4 ∈ parityPositions 4 ∧ coverage 4 4 = [] ∧
    coverage 4 5 ≠ [] ∧ (bits "1111").length = 4 ∧ (bits "11111111").length = 8 := by decide
theorem witness_MismatchForms : 1 ∈ parityPositions (bits "1000101").length := by decide
theorem witness_SyndromeRange : 1 ≤ 6 ∧ (bits "001100").length = 6 ∧ 7 ≤ 2 ^ numPow2 6 - 1 ∧ syndrome (bits "001100") = 7 ∧
    6 ≤ 7 := by decide
theorem witness_SingleFlipLaw : valid (bits "101101") = true ∧ 1 ≤ 6 ∧ 6 ≤ (bits "101101").length ∧
    (bits "001100").length < syndrome (bits "001100") ∧ (bits "101101").length = (bits "001100").length := by decide
theorem witness_SyndromeClosedForm : (bits "1010").length = (bits "0110").length := by decide
theorem witness_MultipleFlipsSyndrome : valid (bits "1010101") = true ∧ [1, 7].Nodup ∧
    (∀ q ∈ [1, 7], 1 ≤ q ∧ q ≤ (bits "1010101").length) ∧ 1 ≤ 1 ∧ 1 ≤ 7 ∧ 1 ≠ 7 := by decide
theorem witness_FlipIsOneBit : 1 ≤ 7 ∧ 7 ≤ (bits "1000101").length ∧ (bits "1000101").length < 8 := by decide
theorem witness_CorrectResponse : WellFormed (on (.bounded 7)).inst (.correct 7 (bits "1000101")) = true ∧
    holdsWord (on (.bounded 7)).inst 7 = true := by decide
theorem witness_CorrectLeavesUnchanged_noError : WellFormed (on (.bounded 7)).inst (.correct 7 (bits "1010101")) = true ∧
    holdsWord (on (.bounded 7)).inst 7 = true ∧ syndrome (operand 7 (bits "1010101")) = 0 := by decide
theorem witness_CorrectLeavesUnchanged_pastTheEnd : WellFormed (on (.bounded 7)).inst (.correct 6 (bits "0011001")) = true ∧
    holdsWord (on (.bounded 7)).inst 6 = true ∧ 6 < syndrome (operand 6 (bits "0011001")) ∧ (bits "101101").length = 6 ∧
    valid (bits "101101") = true := by decide
theorem witness_SingleErrorIsCorrected_valid : WellFormed (on (.bounded 7)).inst (.correct 6 (bits "1011011")) = true ∧
    holdsWord (on (.bounded 7)).inst 6 = true ∧ (bits "101101").length = 6 ∧ valid (bits "101101") = true ∧
    operand 6 (bits "1011011") = bits "101101" := by decide
theorem witness_SingleErrorIsCorrected_flips : WellFormed (on (.bounded 7)).inst (.correct 6 (bits "0011010")) = true ∧
    operand 6 (bits "0011010") = flipBit (bits "101101") 1 ∧ WellFormed (on (.bounded 7)).inst (.correct 6 (bits "1011000")) = true ∧
    operand 6 (bits "1011000") = flipBit (bits "101101") 6 ∧ valid (bits "101101") = true := by decide
theorem witness_MultipleErrorsResponse : WellFormed (on (.bounded 7)).inst (.correct 6 (bits "0011001")) = true ∧
    valid (bits "101101") = true ∧ [1, 6].Nodup ∧ (∀ q ∈ [1, 6], 1 ≤ q ∧ q ≤ 6) ∧
    operand 6 (bits "0011001") = flipAll (bits "101101") [1, 6] ∧ xorOf [1, 6] = 7 ∧
    operand 6 (bits "1110010") = flipAll (bits "101101") [2, 4] ∧ xorOf [2, 4] = 6 := by decide
theorem witness_CorrectionIsStable : WellFormed (on (.bounded 7)).inst (.correct 7 (bits "1000101")) = true ∧
    holdsWord (on (.bounded 7)).inst 7 = true ∧ WellFormed (on (.bounded 7)).inst (.correct 7 (bits "1010101")) = true ∧
    operand 7 (bits "1010101") = (correctResult (operand 7 (bits "1000101"))).dout := by decide
theorem witness_CorrectCornerLengths : isPow2 (bits "1110").length = true ∧ valid (bits "1110") = true := by decide
theorem witness_ErrorPositionTellsCorrection : WellFormed (on .unbounded).inst (.correct 6 (bits "001100")) = true ∧
    holdsWord (on .unbounded).inst 6 = true := by decide
theorem witness_LayoutClosedForm : 1 ≤ 3 ∧ 3 ≤ (bits "101").length ∧ 4 ∈ parityPositions (encLen (bits "101").length) := by decide
theorem witness_CodewordLength : dataLen 4 = 1 ∧ dataLen 3 = 1 ∧ encLen 1 = 3 ∧ 1 ≤ 1 ∧ 1 + 2 + 1 ≤ 2 ^ 2 ∧ encLen 4 < encLen 5 := by
  decide
theorem witness_EncodeResponse_within : WellFormed (on (.bounded 7)).inst (.encode 4 (bits "1101010")) = true ∧
    holdsData (on (.bounded 7)).inst 4 = true := by decide
theorem witness_EncodeResponse_over : WellFormed (on (.bounded 7)).inst (.encode 5 (bits "1101010")) = true ∧
    holdsData (on (.bounded 7)).inst 5 = false ∧ WellFormed (on .unbounded).inst (.encode 5 (bits "11010")) = true := by decide
theorem witness_FillOrderIsNotObservable : (bits "110110").length = encLen (bits "010").length ∧
    (∀ i ∈ dataPositions (bits "110110").length, bitAt (bits "110110") i = bitAt (layout (bits "010")) i) ∧
    [4, 1, 2].Perm (parityPositions (bits "110110").length) := by decide
theorem witness_EncodeGivesTheValidCodewords : (bits "101").length = (bits "101").length ∧ (bits "101101").length = encLen 3 ∧
    valid (bits "101101") = true ∧ 1 ≤ 3 ∧ 3 ≤ (bits "101").length := by decide
theorem witness_EncodeIsLinear : (bits "1000").length = (bits "0100").length ∧ 1 ≤ 4 ∧ 4 ≤ (bits "1000").length := by decide
theorem witness_CodewordEndsInData : encodeWord (bits "1") ≠ [] ∧ (bits "1101").length = 4 ∧ (List.replicate 11 true).length = 11 ∧
    (List.replicate 26 true).length = 26 ∧ (List.replicate 57 true).length = 57 ∧ isPow2 ((encodeWord (bits "1101")).length + 1) = true := by decide
theorem witness_EncodeEmptyAndOneBit : WellFormed (on (.bounded 7)).inst (.encode 0 (bits "1101010")) = true ∧
    WellFormed (on (.bounded 7)).inst (.decode 0 (bits "1101010")) = true := by decide
theorem witness_ExtractUndoesLayout : 1 ≤ 4 ∧ 4 ≤ dataLen (bits "1010101").length ∧
    (bits "1010101").length = (layout (bits "1101")).length ∧
    ∀ i ∈ dataPositions (bits "1010101").length, bitAt (bits "1010101") i = bitAt (layout (bits "1101")) i := by decide
theorem witness_DecodeResponse : WellFormed (on (.bounded 7)).inst (.decode 6 (bits "0110101")) = true ∧
    holdsWord (on (.bounded 7)).inst 6 = true := by decide
theorem witness_DecodeWithoutCorrectedWord : WellFormed (on .unbounded).inst (.decode 3 (bits "110")) = true ∧
    holdsWord (on .unbounded).inst 3 = true ∧ errPos (operand 3 (bits "111")) = 0 ∧
    isPow2 (errPos (operand 3 (bits "011"))) = true := by decide
theorem witness_RoundTripThroughOneFlip : WellFormed (on (.bounded 7)).inst (.encode 3 (bits "1010000")) = true ∧
    holdsData (on (.bounded 7)).inst 3 = true ∧ WellFormed (on (.bounded 7)).inst (.decode 6 (bits "1011000")) = true ∧
    operand 6 (bits "1011000") = flipBit (encodeWord (operand 3 (bits "1010000"))) 6 ∧
    operand 6 (bits "1011010") = encodeWord (operand 3 (bits "1010000")) := by decide
theorem witness_DecodeCornerLengths : isPow2 (7 + 1) = true := by decide
theorem witness_SizesFollowFromNmax : 1 ≤ 7 ∧ 7 ≤ 7 ∧ (bits "0010110").length ≤ 7 := by decide
theorem witness_PortsCarryExactNumbers : 2 < numPow2 (bits "0001").length ∧ 7 ≤ 7 ∧ 2 < portWidth 7 := by decide
theorem witness_WiresBeyondTheLength : (bits "1010000").length = (bits "1011111").length ∧
    (bits "1010000").take (ofDigits (digits 3 3)) = (bits "1011111").take (ofDigits (digits 3 3)) ∧
    responsesAlone (.bounded 7) ⟨0b00#2, digits 3 3, bits "1010000"⟩ ≠ [] ∧ 6 < 7 := by decide
theorem witness_CodeSelectsOperation : requestFits (.bounded 7) ⟨0b00#2, digits 3 7, bits "1010101"⟩ = true ∧
    requestFits (.bounded 7) ⟨0b01#2, digits 3 0, bits "1010101"⟩ = true ∧
    requestFits .unbounded ⟨0b10#2, digits 2 3, bits "101"⟩ = true ∧
    requestFits .unbounded ⟨0b11#2, [], []⟩ = true := by decide
theorem witness_StepFollowsExec : requestFits (.bounded 12) ⟨0b11#2, digits 4 13, bits "000000000000"⟩ = true ∧
    requestFits (.bounded 12) ⟨0b00#2, digits 4 9, bits "000000000000"⟩ = true ∧ holdsData (.bounded 12) 9 = false ∧
    requestFits (.bounded 12) ⟨0b00#2, digits 4 8, bits "000000000000"⟩ = true ∧ holdsData (.bounded 12) 8 = true ∧
    requestFits (.bounded 12) ⟨0b10#2, digits 4 13, bits "000000000000"⟩ = true ∧ holdsWord (.bounded 12) 13 = false ∧
    requestFits (.bounded 12) ⟨0b01#2, digits 4 12, bits "000000000000"⟩ = true ∧ holdsWord (.bounded 12) 12 = true := by decide
theorem witness_ReservedCodeIsRefused :
    (State.only (.bounded 12) ⟨0b11#2, digits 4 13, bits "000000000000"⟩).requests =
      [⟨0b11#2, digits 4 13, bits "000000000000"⟩] := by decide
theorem witness_CapacityRule : withinCapacity (.bounded 7) (.encode 4 (bits "1101010")) = true ∧
    withinCapacity (.bounded 7) (.encode 5 (bits "1101010")) = false ∧
    withinCapacity (.bounded 12) (.correct 12 (bits "000000000000")) = true ∧
    withinCapacity (.bounded 12) (.decode 13 (bits "000000000000")) = false := by decide
theorem witness_CallStandsForRequest : holdsWord (.bounded 7) (bits "1010101").length = true ∧
    bitsOfText "101".toList = some (bits "101") ∧ bitsOfText "12".toList = none := by decide
theorem witness_DecodeOfEncode : WellFormed (.bounded 7) (.encode 7 (bits "1010101")) = true ∧
    WellFormed .unbounded (.decode 0 []) = true ∧ WellFormed (.bounded 12) (.correct 15 (bits "000000000000")) = true := by decide
theorem witness_EncodeOfDecode : decode (.bounded 7) ⟨0b01#2, [true, true, true], bits "1010101"⟩ =
    .ok (.decode 7 (bits "1010101")) := rfl
theorem witness_StepExecutesDecodedRequest : (State.only (.bounded 7) ⟨0b10#2, digits 3 7, bits "1000101"⟩).requests =
      [⟨0b10#2, digits 3 7, bits "1000101"⟩] ∧
    decode (.bounded 7) ⟨0b10#2, digits 3 7, bits "1000101"⟩ = .ok (.correct 7 (bits "1000101")) := ⟨rfl, rfl⟩
theorem witness_OnlyOneResponseIsAdded : (∃ t, exec (.encode 3 (bits "101")) (on .unbounded) = .next t) ∧
    (∃ t, exec (.decode 3 (bits "110")) (on .unbounded) = .next t) ∧
    (∃ t, exec (.correct 3 (bits "110")) (on .unbounded) = .next t) ∧
    ∃ t, step (State.only .unbounded ⟨0b10#2, digits 2 3, bits "110"⟩) = .next t := ⟨⟨_, rfl⟩, ⟨_, rfl⟩, ⟨_, rfl⟩, ⟨_, rfl⟩⟩
theorem witness_ResponseDependsOnRequestAlone :
    (State.only .unbounded ⟨0b10#2, digits 2 3, bits "110"⟩).requests = [⟨0b10#2, digits 2 3, bits "110"⟩] ∧
    (∃ t, step (State.only .unbounded ⟨0b10#2, digits 2 3, bits "110"⟩) = .next t) ∧
    ∃ e, step (State.only .unbounded ⟨0b11#2, digits 2 3, bits "110"⟩) = .refused e := ⟨rfl, ⟨_, rfl⟩, ⟨_, rfl⟩⟩
theorem witness_RequestsAreIndependent :
    (∀ r ∈ [⟨0b00#2, digits 3 4, bits "1101010"⟩, ⟨0b10#2, digits 3 7, bits "1010111"⟩], accepted (.bounded 7) r = true) ∧
    ([⟨0b00#2, digits 3 4, bits "1101010"⟩, ⟨0b10#2, digits 3 7, bits "1010111"⟩] : List Request).Perm
      [⟨0b10#2, digits 3 7, bits "1010111"⟩, ⟨0b00#2, digits 3 4, bits "1101010"⟩] ∧
    ∃ t, core.run 2 { inst := .bounded 7, requests := [⟨0b00#2, digits 3 4, bits "1101010"⟩, ⟨0b10#2, digits 3 7, bits "1010111"⟩], responses := [] } = .next t :=
  ⟨by decide, by decide, ⟨_, rfl⟩⟩
theorem witness_TotalWithinCapacity : WellFormed (on (.bounded 7)).inst (.encode 4 (bits "1101010")) = true ∧
    withinCapacity (on (.bounded 7)).inst (.encode 4 (bits "1101010")) = true ∧
    WellFormed (on (.bounded 7)).inst (.decode 0 (bits "1101010")) = true ∧ (Instr.decode 0 (bits "1101010")).len = 0 := by decide
theorem witness_StepAnswersExactlyAccepted : accepted (.bounded 7) ⟨0b00#2, digits 3 4, bits "1101010"⟩ = true ∧
    requestFits (.bounded 7) ⟨0b00#2, digits 3 5, bits "1101010"⟩ = true ∧
    refusalAlone (.bounded 7) ⟨0b00#2, digits 3 5, bits "1101010"⟩ = some .overCapacity ∧
    requestFits (.bounded 7) ⟨0b11#2, digits 3 5, bits "1101010"⟩ = true ∧
    refusalAlone (.bounded 7) ⟨0b11#2, digits 3 5, bits "1101010"⟩ = some .reservedOp := by decide
theorem witness_NothingIsRaised :
    (on (.bounded 7) |>.present ⟨0b00#2, digits 3 4, bits "1101010"⟩ |>.present ⟨0b10#2, digits 3 6, bits "0011001"⟩).requests =
      [⟨0b10#2, digits 3 6, bits "0011001"⟩, ⟨0b00#2, digits 3 4, bits "1101010"⟩] ∧
    accepted (.bounded 7) ⟨0b10#2, digits 3 6, bits "0011001"⟩ = true ∧
    accepted (.bounded 7) ⟨0b00#2, digits 3 4, bits "1101010"⟩ = true := by decide
theorem witness_StepKeepsWires : (State.only (.bounded 7) ⟨0b10#2, digits 3 7, bits "1010111"⟩).wf = true ∧
    responsesAlone (.bounded 7) ⟨0b10#2, digits 3 7, bits "1010111"⟩ ≠ [] := by decide
theorem witness_ResetHoldsNothing : accepted .unbounded ⟨0b10#2, digits 3 7, bits "1000101"⟩ = true := by decide

end Sys2Proof.Tests
end

section
/-! The parity-position count in closed form (40_classifier.md R49) and the bounds that follow from it on data lengths and on
the syndrome; then the sizes that follow from `NMAX` (00_scope.md R6). -/

namespace Sys2Proof.Machine

/-- The classifier is true exactly at the powers of two; 0 is none. -/
theorem isPow2_iff_exists (i : Nat) : isPow2 i = true ↔ ∃ k, i = 2 ^ k := by
  simp only [isPow2, Bool.and_eq_true, decide_eq_true_eq, beq_iff_eq, Nat.pos_iff_ne_zero]
  exact Nat.ne_zero_and_sub_one_eq_zero_iff_isPowerOfTwo

/-- The binary logarithm rises by one exactly at a power of two, as the count of parity positions does. -/
theorem log2_succ (n : Nat) (h : 1 ≤ n) : Nat.log2 (n + 1) = Nat.log2 n + (isPow2 (n + 1)).toNat := by
  obtain ⟨hle, hlt⟩ := (Nat.log2_eq_iff (by omega : n ≠ 0)).mp rfl
  rw [Nat.log2_eq_iff (by omega)]
  cases hp : isPow2 (n + 1) with
  | true =>
    obtain ⟨k, hk⟩ := (isPow2_iff_exists _).mp hp
    have hlow : Nat.log2 n < k := (Nat.pow_lt_pow_iff_right (by omega : 1 < 2)).mp (by omega : 2 ^ Nat.log2 n < 2 ^ k)
    have hhigh : 2 ^ (Nat.log2 n + 1) ≤ 2 ^ k := Nat.pow_le_pow_right (by omega) hlow
    simp only [Bool.toNat_true]
    omega
  | false =>
    have hne : n + 1 ≠ 2 ^ (Nat.log2 n + 1) := fun he => by
      simp [(isPow2_iff_exists (n + 1)).mpr ⟨_, he⟩] at hp
    simp only [Bool.toNat_false, Nat.add_zero]
    omega

theorem numPow2_eq_log2_add_one (n : Nat) (h : 1 ≤ n) : numPow2 n = Nat.log2 n + 1 := by
  induction n, h using Nat.le_induction with
  | base => rfl
  | succ n h ih => rw [numPow2_succ, log2_succ n h, ih]; omega

/-- `NumPow2(n)` binary digits are enough for `n`. -/
theorem lt_two_pow_numPow2 (n : Nat) : n < 2 ^ numPow2 n := by
  rcases Nat.eq_zero_or_pos n with rfl | h
  · simp [numPow2_zero]
  · rw [numPow2_eq_log2_add_one n h]
    exact Nat.lt_log2_self

theorem numPow2_mono : Monotone numPow2 :=
  monotone_nat_of_le_succ fun n => by rw [numPow2_succ]; exact Nat.le_add_right _ _

/-- One position more is one parity position more or one data position more. -/
theorem dataLen_succ (n : Nat) : dataLen (n + 1) = dataLen n + (!isPow2 (n + 1)).toNat := by
  rw [dataLen, dataLen, numPow2_succ]
  cases isPow2 (n + 1) with
  | true => exact Nat.add_sub_add_right n 1 (numPow2 n)
  | false => exact Nat.sub_add_comm (numPow2_le n)

theorem dataLen_mono : Monotone dataLen :=
  monotone_nat_of_le_succ fun n => by rw [dataLen_succ]; exact Nat.le_add_right _ _

@[simp] theorem length_parityPositions (n : Nat) : (parityPositions n).length = numPow2 n := by
  simp [parityPositions]

@[simp] theorem length_mismatchVector (s : Bitstring) : (mismatchVector s).length = numPow2 s.length := by
  simp [mismatchVector]

/-- A syndrome has one binary digit for each parity position of its word (42_syndrome.md R65). -/
theorem syndrome_lt_two_pow_numPow2 (s : Bitstring) : syndrome s < 2 ^ numPow2 s.length := by
  simpa [syndrome] using ofDigits_lt (mismatchVector s)

/-- The wires of an integer port carry every number of `[0, NMAX]` (00_scope.md R6). -/
theorem lt_two_pow_portWidth {v nmax : Nat} (h : v ≤ nmax) : v < 2 ^ portWidth nmax :=
  Nat.lt_of_le_of_lt h (lt_two_pow_numPow2 nmax)

theorem numPow2_le_portWidth {n nmax : Nat} (h : n ≤ nmax) : numPow2 n ≤ portWidth nmax := numPow2_mono h

/-- The wires of an integer port carry every syndrome of a word the instance holds (00_scope.md R6). -/
theorem syndrome_lt_two_pow_portWidth {s : Bitstring} {nmax : Nat} (h : s.length ≤ nmax) :
    syndrome s < 2 ^ portWidth nmax :=
  Nat.lt_of_lt_of_le (syndrome_lt_two_pow_numPow2 s) (Nat.pow_le_pow_right (by omega) (numPow2_le_portWidth h))

/-- `DCAP` bounds the data length of every word the instance holds (00_scope.md R6). -/
theorem dataLen_le_dataCapacity {n nmax : Nat} (h : n ≤ nmax) : dataLen n ≤ dataCapacity nmax := dataLen_mono h

/-- Settles O40: `LW` is the count of parity positions in closed form, `DataLen` grows with the length, and a syndrome has one
digit for each parity position. -/
theorem sizesFollowFromNmax : Obligations.SizesFollowFromNmax := by
  refine ⟨fun nmax h => ?_, fun k => ⟨rfl, rfl⟩, by decide, by decide, by decide⟩
  exact ⟨numPow2_eq_log2_add_one nmax h, rfl, (length_parityPositions nmax).symm, rfl, fun _ => lt_two_pow_portWidth,
    fun _ => dataLen_le_dataCapacity, fun _ => syndrome_lt_two_pow_portWidth⟩

end Sys2Proof.Machine
end

section
/-! The response as a function of the instance and the request (10_state.md R17): `exec` and `step` compute it from these two
and only then hand it to the state. -/

namespace Sys2Proof.Machine

/-- The result an instruction's operation computes from its operand (30_encoding.md R33). -/
def resultFor : Instr → Result
  | .encode len din => encodeResult (operand len din)
  | .decode len din => decodeResult (operand len din)
  | .correct len din => correctResult (operand len din)

/-- The response, or the refusal, of an instruction on an instance. -/
def responseFor (inst : Instance) (i : Instr) : Except Refusal Response :=
  respond inst (withinCapacity inst i) (resultFor i)

/-- The response, or the refusal, of a request to an instance. -/
def responseTo (inst : Instance) (r : Request) : Except Refusal Response :=
  match decode inst r with
  | .error e => .error (refusalOf e)
  | .ok i => responseFor inst i

/-- Every operation answers with its response; of the state, that response depends on the instance alone. -/
theorem exec_eq_answer (i : Instr) (s : State) : exec i s = s.answer (responseFor s.inst i) := by
  cases i <;> rfl

/-- A step takes the oldest request and answers it; of the state, its response depends on the instance and that request alone. -/
theorem step_eq_answer {s : State} {r : Request} {rest : List Request} (h : s.requests = r :: rest) :
    step s = { s with requests := rest }.answer (responseTo s.inst r) := by
  have hfetch : s.fetch = some (r, { s with requests := rest }) := (fetch_eq_some _ _ _).mpr ⟨h, rfl, rfl⟩
  simp only [step, hfetch, responseTo]
  cases decode s.inst r with
  | error e => rfl
  | ok i => exact exec_eq_answer i _

/-- Settles O53: both steps answer with the response of one request to one instance. -/
theorem responseDependsOnRequestAlone : Obligations.ResponseDependsOnRequestAlone := by
  intro s s' r rest rest' hinst hs hs'
  rw [step_eq_answer hs, step_eq_answer hs', ← hinst]
  constructor
  · intro t ht
    obtain ⟨a, ha, rfl⟩ := (answer_eq_next _ _ _).mp ht
    exact ⟨_, a, (answer_eq_next _ _ _).mpr ⟨a, ha, rfl⟩, rfl, rfl⟩
  · intro e he
    exact (answer_eq_refused _ _ _).mpr ((answer_eq_refused _ _ _).mp he)

end Sys2Proof.Machine
end

section
/-! The wires of an integer port and of the syndrome, read by index (20_memory.md R23). -/

namespace Sys2Proof.Machine

/-- Wire `k` of a number's port holds its binary digit `k`. -/
theorem getElem?_digits {w k : Nat} (v : Nat) (h : k < w) : (digits w v)[k]? = some (v.testBit k) := by
  simp [digits, h]

/-- Binary digit `k` of the number on the wires `ds` is wire `k`. -/
theorem getElem?_eq_testBit_ofDigits {ds : Digits} {k : Nat} (h : k < ds.length) :
    ds[k]? = some ((ofDigits ds).testBit k) := by
  rw [← getElem?_digits _ h, digits_ofDigits]

/-- The entry of index `k` in the mismatch vector is that of parity position `2^k` (42_syndrome.md R61). -/
theorem getElem?_mismatchVector {s : Bitstring} {k : Nat} (h : k < numPow2 s.length) :
    (mismatchVector s)[k]? = some (mismatch s (2 ^ k)) := by
  simp [mismatchVector, parityPositions, h]

theorem testBit_syndrome {s : Bitstring} {k : Nat} (h : k < numPow2 s.length) :
    (syndrome s).testBit k = mismatch s (2 ^ k) := by
  have hwire : (mismatchVector s)[k]? = some ((syndrome s).testBit k) :=
    getElem?_eq_testBit_ofDigits (by rwa [length_mismatchVector])
  exact Option.some.inj (hwire.symm.trans (getElem?_mismatchVector h))

/-- Settles O41: the port's wires are the number's digits, and there are enough of them for every number up to `NMAX`. -/
theorem portsCarryExactNumbers : Obligations.PortsCarryExactNumbers := by
  refine ⟨fun s k => testBit_syndrome, fun nmax v hv => ⟨length_digits _ _, ?_, fun k => getElem?_digits v⟩⟩
  exact ofDigits_digits _ v (lt_two_pow_portWidth hv)

end Sys2Proof.Machine
end

section
/-! `EncLen(k)` as the least length with `k` data positions (44_encode.md R80), and the place of a data position in the list
of data positions (20_memory.md R21). -/

namespace Sys2Proof.Machine

theorem dataLen_zero : dataLen 0 = 0 := rfl

theorem length_dataPositions (n : Nat) : (dataPositions n).length = dataLen n := by
  induction n with
  | zero => rfl
  | succ n ih => cases h : isPow2 (n + 1) <;> simp [dataPositions_succ, dataLen_succ, h, ih]

/-- The data length never skips a value on its way up, since it rises by at most one. -/
theorem exists_dataLen_eq {k n : Nat} (h : k ≤ dataLen n) : ∃ m ≤ n, dataLen m = k := by
  induction n with
  | zero => exact ⟨0, Nat.le_refl 0, by rw [dataLen_zero] at h ⊢; omega⟩
  | succ n ih =>
    rcases Nat.lt_or_ge (dataLen n) k with hlt | hge
    · have hone := Bool.toNat_le (!isPow2 (n + 1))
      exact ⟨n + 1, Nat.le_refl _, by rw [dataLen_succ] at h ⊢; omega⟩
    · obtain ⟨m, hm, hk⟩ := ih hge
      exact ⟨m, by omega, hk⟩

/-- Of the positions `1, …, 2k + 1` at most `k + 1` are parity positions, since `2k + 1` has at most `k + 1` binary digits. -/
theorem le_dataLen_two_mul_add_one (k : Nat) : k ≤ dataLen (2 * k + 1) := by
  have hlog : Nat.log2 (2 * k + 1) < k + 1 := by
    rw [Nat.log2_lt (by omega), Nat.pow_succ]
    have := Nat.lt_two_pow_self (n := k)
    omega
  rw [dataLen, numPow2_eq_log2_add_one _ (by omega)]
  omega

/-- The search for `EncLen(k)` succeeds, so its result is the least length with `k` data positions. -/
theorem find?_dataLen_eq_encLen (k : Nat) :
    (List.range (2 * k + 2)).find? (fun n => dataLen n == k) = some (encLen k) := by
  obtain ⟨m, hm, hk⟩ := exists_dataLen_eq (le_dataLen_two_mul_add_one k)
  have hfound : ((List.range (2 * k + 2)).find? (fun n => dataLen n == k)).isSome :=
    List.find?_isSome.mpr ⟨m, List.mem_range.mpr (by omega), by simpa using hk⟩
  obtain ⟨n, hn⟩ := Option.isSome_iff_exists.mp hfound
  simp [encLen, hn]

theorem dataLen_encLen (k : Nat) : dataLen (encLen k) = k := by
  simpa using List.find?_some (find?_dataLen_eq_encLen k)

theorem encLen_le (k : Nat) : encLen k ≤ 2 * k + 1 :=
  Nat.lt_succ_iff.mp (List.mem_range.mp (List.mem_of_find?_eq_some (find?_dataLen_eq_encLen k)))

theorem dataLen_ne_of_lt_encLen {k m : Nat} (h : m < encLen k) : dataLen m ≠ k := by
  obtain ⟨-, -, hleast⟩ := List.find?_range_eq_some.mp (find?_dataLen_eq_encLen k)
  simpa using hleast m h

theorem one_le_encLen {k : Nat} (h : 1 ≤ k) : 1 ≤ encLen k := by
  refine Nat.pos_of_ne_zero fun hzero => ?_
  have hk := dataLen_encLen k
  rw [hzero, dataLen_zero] at hk
  omega

/-- A parity position adds no data position, so it would not be the least length with its data length. -/
theorem isPow2_encLen {k : Nat} (h : 1 ≤ k) : isPow2 (encLen k) = false := by
  obtain ⟨n, hn⟩ := Nat.exists_eq_add_of_le' (one_le_encLen h)
  by_contra hp
  rw [Bool.not_eq_false, hn] at hp
  have hsame := dataLen_succ n
  rw [← hn, dataLen_encLen, hn, hp] at hsame
  exact dataLen_ne_of_lt_encLen (by omega) hsame.symm

theorem dataPositions_prefix {n m : Nat} (h : n ≤ m) : dataPositions n <+: dataPositions m := by
  induction m, h using Nat.le_induction with
  | base => exact List.prefix_rfl
  | succ m _ ih =>
    rw [dataPositions_succ]
    cases isPow2 (m + 1) with
    | true => exact ih
    | false => exact ih.trans (List.prefix_append _ _)

/-- The place of a data position in the list is the number of data positions before it. -/
theorem getElem?_dataPositions {n m : Nat} (hp : isPow2 (n + 1) = false) (h : n + 1 ≤ m) :
    (dataPositions m)[dataLen n]? = some (n + 1) := by
  have hlist : dataPositions (n + 1) = dataPositions n ++ [n + 1] := by simp [dataPositions_succ, hp]
  obtain ⟨rest, hrest⟩ := dataPositions_prefix h
  rw [← hrest, hlist, ← length_dataPositions]
  simp

/-- `DPos(j) = EncLen(j)`: by the least length with `j` data positions, `j - 1` were passed and the last one is the `j`-th. -/
theorem dataPosition_eq_encLen {j : Nat} (h : 1 ≤ j) : dataPosition j = encLen j := by
  obtain ⟨n, hn⟩ := Nat.exists_eq_add_of_le' (one_le_encLen h)
  have hp : isPow2 (n + 1) = false := hn ▸ isPow2_encLen h
  have hbefore : dataLen n = j - 1 := by
    have hj := dataLen_encLen j
    rw [hn, dataLen_succ, hp, Bool.not_false, Bool.toNat_true] at hj
    omega
  have hget := getElem?_dataPositions hp (hn ▸ encLen_le j)
  rw [dataPosition, ← hbefore, List.getD_eq_getElem?_getD, hget, hn, Option.getD_some]

/-- Settles O6: the `j`-th data position is the least length with `j` data positions, which is no parity position. -/
theorem dataBitPosition : Obligations.DataBitPosition := by
  refine ⟨fun j h => ?_, by decide⟩
  rw [dataPosition_eq_encLen h]
  exact ⟨rfl, isPow2_encLen h, dataLen_encLen j⟩

end Sys2Proof.Machine
end

section
/-! The code of a request selects its operation (30_encoding.md R38 to R41). -/

namespace Sys2Proof.Machine

/-- The reserved code is tested before any other port is read (30_encoding.md R33, R41). -/
theorem decode_of_reserved {inst : Instance} {r : Request} (h : r.op = 0b11#2) : decode inst r = .error .reservedOp := by
  simp [decode, h]

/-- On the wires of the instance only the code is left to choose. -/
theorem decode_of_requestFits {inst : Instance} {r : Request} (h : requestFits inst r = true) :
    decode inst r =
      if r.op = 0b11#2 then .error .reservedOp
      else if r.op = 0b00#2 then .ok (.encode (lenOf r) r.din)
      else if r.op = 0b01#2 then .ok (.decode (lenOf r) r.din)
      else .ok (.correct (lenOf r) r.din) := by
  obtain ⟨hlen, hdin⟩ : lenPortFits inst r = true ∧ dinPortFits inst r = true := by simpa [requestFits] using h
  simp [decode, hlen, hdin]

/-- Settles O43: each code picks its own branch of the decoder. -/
theorem codeSelectsOperation : Obligations.CodeSelectsOperation := by
  intro inst r hfits
  refine ⟨fun hop => ?_, fun hop => ?_, fun hop => ?_, decode_of_reserved⟩ <;> simp [decode_of_requestFits hfits, hop]

/-- Settles O45: the request decodes to the reserved code's error, which is the answer of the step. -/
theorem reservedCodeIsRefused : Obligations.ReservedCodeIsRefused := by
  intro s r rest hs hop
  rw [step_eq_answer hs, responseTo, decode_of_reserved hop]
  rfl

end Sys2Proof.Machine
end

section
/-! The capacity rule (30_encoding.md R42), by the adjunction of `EncLen` and `DataLen`. -/

namespace Sys2Proof.Machine

/-- `EncLen` is the lower adjoint of `DataLen`: a length has `k` data positions or more exactly when it is `EncLen(k)` or more. -/
theorem encLen_le_iff (k n : Nat) : encLen k ≤ n ↔ k ≤ dataLen n := by
  constructor
  · intro h
    have hmono := dataLen_mono h
    rwa [dataLen_encLen] at hmono
  · intro h
    obtain ⟨m, hm, hk⟩ := exists_dataLen_eq h
    exact (Nat.le_of_not_lt fun hlt => dataLen_ne_of_lt_encLen hlt hk).trans hm

theorem encLen_mono : Monotone encLen := fun k m h => (encLen_le_iff k _).mpr (by rwa [dataLen_encLen])

/-- Data is within the capacity of ENCODE exactly when its codeword fits the bus. -/
theorem holdsData_eq_holdsWord_encLen (inst : Instance) (k : Nat) : holdsData inst k = holdsWord inst (encLen k) := by
  cases inst with
  | unbounded => rfl
  | bounded nmax => exact decide_eq_decide.mpr (encLen_le_iff k nmax).symm

theorem withinCapacity_unbounded (i : Instr) : withinCapacity .unbounded i = true := by
  cases i <;> rfl

/-- Capacity is the only ground on which `exec` refuses. -/
theorem exec_eq_refused_iff (i : Instr) (s : State) (e : Refusal) :
    exec i s = .refused e ↔ withinCapacity s.inst i = false ∧ e = .overCapacity := by
  rw [exec_eq_answer, answer_eq_refused, responseFor, respond_eq_error]

/-- Settles O46: `exec` refuses on the capacity test alone, and `DCAP = DataLen(NMAX)` is the bound of `EncLen`. -/
theorem capacityRule : Obligations.CapacityRule := by
  refine ⟨fun s i => ?_, fun nmax len _ => ?_, fun nmax len _ => ?_, fun nmax len _ => ?_,
    fun nmax len => (encLen_le_iff len nmax).symm, withinCapacity_unbounded⟩
  · simp [exec_eq_refused_iff]
  · exact decide_eq_true_iff
  · exact decide_eq_true_iff
  · exact decide_eq_true_iff

end Sys2Proof.Machine
end

section
/-! The length of an operation's result: it is what `len_out` says, and within capacity the bus carries it. -/

namespace Sys2Proof.Machine

/-- The walk from position `n + 1` ends at the least length that has room for the data left, or at once if none is left. -/
theorem add_length_layoutWalk (steps n : Nat) (d : Bitstring) (h : encLen (dataLen n + d.length) ≤ n + steps) :
    n + (layoutWalk steps (n + 1) d).length = max n (encLen (dataLen n + d.length)) := by
  induction steps generalizing n d with
  | zero =>
    have hnone : layoutWalk 0 (n + 1) d = [] := by cases d <;> rfl
    rw [hnone]
    exact (max_eq_left h).symm
  | succ steps ih =>
    cases d with
    | nil => exact (max_eq_left ((encLen_le_iff _ n).mpr (Nat.le_refl _))).symm
    | cons b rest =>
      have hahead : n < encLen (dataLen n + (b :: rest).length) := by
        rw [← Nat.not_le, encLen_le_iff, List.length_cons]
        omega
      have hdata := dataLen_succ n
      cases hp : isPow2 (n + 1) with
      | true =>
        have hsame : dataLen (n + 1) = dataLen n := by simpa [hp] using hdata
        have hwalk := ih (n + 1) (b :: rest) (by rw [hsame]; omega)
        rw [hsame] at hwalk
        rw [layoutWalk, if_pos hp, List.length_cons]
        omega
      | false =>
        have hmore : dataLen (n + 1) + rest.length = dataLen n + (b :: rest).length := by
          rw [hdata, hp, List.length_cons]
          simp only [Bool.not_false, Bool.toNat_true]
          omega
        have hwalk := ih (n + 1) rest (by rw [hmore]; omega)
        rw [hmore] at hwalk
        rw [layoutWalk, if_neg (by simp [hp]), List.length_cons]
        omega

@[simp] theorem length_layout (d : Bitstring) : (layout d).length = encLen d.length := by
  have hroom : encLen (dataLen 0 + d.length) ≤ 0 + (2 * d.length + 1) := by
    simpa [dataLen_zero] using encLen_le d.length
  simpa [layout, dataLen_zero] using add_length_layoutWalk _ 0 d hroom

@[simp] theorem length_fillSlots (slots : List Nat) (cw : Bitstring) : (fillSlots slots cw).length = cw.length := by
  induction slots generalizing cw with
  | nil => rfl
  | cons p slots ih => exact (ih _).trans (length_writeAt _ _ _)

@[simp] theorem length_encodeWord (d : Bitstring) : (encodeWord d).length = encLen d.length := by
  simp [encodeWord]

@[simp] theorem length_flipBit (s : Bitstring) (e : Nat) : (flipBit s e).length = s.length := by
  unfold flipBit
  split <;> simp

@[simp] theorem length_extract (s : Bitstring) : (extract s).length = dataLen s.length := by
  simp [extract, length_dataPositions]

/-- The length of a result is the length of its bitstring (30_encoding.md R32). -/
theorem lenOut_resultFor (i : Instr) : (resultFor i).lenOut = (resultFor i).dout.length := by
  cases i <;> simp [resultFor, encodeResult, decodeResult, correctResult]

theorem length_operand_le (len : Nat) (din : Bitstring) : (operand len din).length ≤ len := List.length_take_le _ _

/-- What fits the bus still fits when it is shorter. -/
theorem holdsWord_of_le {inst : Instance} {m n : Nat} (hle : m ≤ n) (h : holdsWord inst n = true) :
    holdsWord inst m = true := by
  cases inst with
  | unbounded => rfl
  | bounded nmax => exact decide_eq_true (hle.trans (of_decide_eq_true h))

/-- Within capacity the bus carries the result. -/
theorem holdsWord_lenOut_resultFor {inst : Instance} {i : Instr} (h : withinCapacity inst i = true) :
    holdsWord inst (resultFor i).lenOut = true := by
  rw [lenOut_resultFor]
  cases i with
  | encode len din =>
    rw [withinCapacity, holdsData_eq_holdsWord_encLen] at h
    exact holdsWord_of_le (by simpa [resultFor, encodeResult] using encLen_mono (length_operand_le len din)) h
  | decode len din =>
    have hle : dataLen (operand len din).length ≤ len := (Nat.sub_le _ _).trans (length_operand_le len din)
    exact holdsWord_of_le (by simpa [resultFor, decodeResult, correctResult] using hle) h
  | correct len din =>
    exact holdsWord_of_le (by simpa [resultFor, correctResult] using length_operand_le len din) h

end Sys2Proof.Machine
end

section
/-! The wires beyond the length (30_encoding.md R36): those of `din` are not read, those of `dout` carry 0. -/

namespace Sys2Proof.Machine

/-- The wires of an integer port carry every length the bus carries. -/
theorem ofDigits_onPort {inst : Instance} {v : Nat} (h : holdsWord inst v = true) : ofDigits (onPort inst v) = v := by
  refine ofDigits_digits _ _ ?_
  cases inst with
  | unbounded => exact lt_two_pow_numPow2 v
  | bounded nmax => exact lt_two_pow_portWidth (of_decide_eq_true h)

theorem lenOutOf_drive {inst : Instance} {r : Result} (h : holdsWord inst r.lenOut = true) :
    lenOutOf (drive inst r) = r.lenOut := ofDigits_onPort h

theorem bitAt_onBus_past_the_end {inst : Instance} {s : Bitstring} {i : Nat} (h : s.length < i) :
    bitAt (onBus inst s) i = false := by
  obtain ⟨j, rfl⟩ := Nat.exists_eq_add_of_le' (Nat.one_le_of_lt h)
  rw [bitAt_succ, onBus, List.getD_append_right _ _ _ _ (Nat.le_of_lt_succ h), List.getD_eq_getElem?_getD,
    List.getElem?_getD_replicate_default_eq]

/-- The response to a request depends on the wires of its operand alone. -/
theorem responseTo_congr {inst : Instance} {r r' : Request} (hop : r.op = r'.op) (hlen : r.len = r'.len)
    (hwires : r.din.length = r'.din.length) (hoperand : operand (lenOf r) r.din = operand (lenOf r) r'.din) :
    responseTo inst r = responseTo inst r' := by
  have hlenOf : lenOf r' = lenOf r := congrArg ofDigits hlen.symm
  have hlenPort : lenPortFits inst r' = lenPortFits inst r := by rw [lenPortFits, lenPortFits, hlenOf, hlen]
  have hdinPort : dinPortFits inst r' = dinPortFits inst r := by rw [dinPortFits, dinPortFits, hlenOf, hwires]
  rw [responseTo, responseTo, decode, decode, hlenPort, hdinPort, ← hop, hlenOf]
  split_ifs <;> simp [responseFor, resultFor, withinCapacity, hoperand]

/-- A response given is the result of the decoded request on the ports, within capacity. -/
theorem responseTo_eq_ok {inst : Instance} {r : Request} {a : Response} (h : responseTo inst r = .ok a) :
    ∃ i, decode inst r = .ok i ∧ withinCapacity inst i = true ∧ a = drive inst (resultFor i) := by
  unfold responseTo at h
  cases hdecode : decode inst r with
  | error e => simp [hdecode] at h
  | ok i =>
    rw [hdecode] at h
    obtain ⟨hwithin, ha⟩ := (respond_eq_ok _ _ _ _).mp h
    exact ⟨i, rfl, hwithin, ha⟩

/-- Settles O42: the answer reads the operand alone, and a result is exactly as long as `len_out` says. -/
theorem wiresBeyondTheLength : Obligations.WiresBeyondTheLength := by
  constructor
  · intro s r r' rest hop hlen hwires hoperand
    rw [step_eq_answer rfl, step_eq_answer rfl]
    exact congrArg _ (responseTo_congr hop hlen hwires hoperand)
  · intro s t r rest hs hstep
    rw [step_eq_answer hs] at hstep
    obtain ⟨a, hresponse, rfl⟩ := (answer_eq_next _ _ _).mp hstep
    obtain ⟨i, -, hwithin, rfl⟩ := responseTo_eq_ok hresponse
    have hlenOut : lenOutOf (drive s.inst (resultFor i)) = (resultFor i).dout.length := by
      rw [lenOutOf_drive (holdsWord_lenOut_resultFor hwithin), lenOut_resultFor]
    refine ⟨_, rfl, fun j hj => bitAt_onBus_past_the_end (hlenOut ▸ hj), fun hunbounded => ?_⟩
    rw [hlenOut, drive_dout, hunbounded]
    exact length_onBus _ _ rfl

end Sys2Proof.Machine
end

section
/-! The classifier's forms (40_classifier.md R45 to R47): form (b) by the complement of a negation, and the one-hot reading. -/

namespace Sys2Proof.Machine

/-- Settles O1: the two values are the model's own evaluation. -/
theorem classifierIsPowerOfTwo : Obligations.ClassifierIsPowerOfTwo :=
  ⟨fun i _ => isPow2_iff_exists i, by decide, by decide⟩

/-- Form (c) is the classifier's definition. -/
theorem isPow2_iff_form_c (i : Nat) : isPow2 i = true ↔ 0 < i ∧ i &&& (i - 1) = 0 := by
  simp [isPow2]

theorem isPow2_iff_form_a {i : Nat} (h : 1 ≤ i) : isPow2 i = true ↔ i &&& (i - 1) = 0 :=
  (isPow2_iff_form_c i).trans (and_iff_right h)

/-- A mask keeps every digit of `x` exactly when its complement has none of them. -/
theorem eq_and_iff_and_not_eq_zero {w : Nat} (x y : BitVec w) : x = x &&& y ↔ x &&& ~~~y = 0#w := by
  simp only [BitVec.eq_of_getElem_eq_iff, BitVec.getElem_and, BitVec.getElem_not, BitVec.getElem_zero]
  refine forall₂_congr fun k hk => ?_
  cases x[k] <;> cases y[k] <;> decide

/-- Form (b) agrees with form (a) in every width that holds `i`, since the complement of `-i` is `i - 1`. -/
theorem isPow2_iff_form_b {w i : Nat} (h : 1 ≤ i) (hw : i < 2 ^ w) :
    isPow2 i = true ↔ BitVec.ofNat w i = BitVec.ofNat w i &&& -BitVec.ofNat w i := by
  have hpred : BitVec.ofNat w i - 1#w = BitVec.ofNat w (i - 1) :=
    BitVec.ofNat_sub_ofNat_of_le i 1 (h.trans_lt hw) h
  have hand : i &&& (i - 1) < 2 ^ w := Nat.and_le_left.trans_lt hw
  rw [isPow2_iff_form_a h, eq_and_iff_and_not_eq_zero, BitVec.not_neg, hpred, ← BitVec.ofNat_and, ← BitVec.toNat_inj,
    BitVec.toNat_ofNat, Nat.mod_eq_of_lt hand, BitVec.toNat_ofNat, Nat.zero_mod]

/-- On enough wires a power of two is a number with exactly one wire at 1. -/
theorem isPow2_iff_one_hot {w i : Nat} (hw : i < 2 ^ w) :
    isPow2 i = true ↔ ∃! k, k < w ∧ i.testBit k = true := by
  rw [isPow2_iff_exists]
  constructor
  · rintro ⟨k, rfl⟩
    have hk : k < w := (Nat.pow_lt_pow_iff_right (by decide)).mp hw
    refine ⟨k, ⟨hk, Nat.testBit_two_pow_self⟩, fun m ⟨_, hm⟩ => ?_⟩
    rw [Nat.testBit_two_pow, decide_eq_true_eq] at hm
    exact hm.symm
  · rintro ⟨k, ⟨_, hk⟩, honly⟩
    refine ⟨k, Nat.eq_of_testBit_eq fun m => ?_⟩
    rw [Nat.testBit_two_pow, Bool.eq_iff_iff, decide_eq_true_eq]
    constructor
    · intro hm
      have hmw : m < w := (Nat.pow_lt_pow_iff_right (by decide)).mp ((Nat.ge_two_pow_of_testBit hm).trans_lt hw)
      exact (honly m ⟨hmw, hm⟩).symm
    · rintro rfl
      exact hk

/-- Settles O2: each form by its own lemma; at 0 the mask of forms (a) and (b) has no digit to keep. -/
theorem classifierFormsAgree : Obligations.ClassifierFormsAgree := by
  refine ⟨fun i h => ⟨(isPow2_iff_form_a h).symm, fun w hw => ?_, (isPow2_iff_form_c i).symm,
    fun w hw => (isPow2_iff_one_hot hw).symm⟩, by decide, fun w => BitVec.zero_and.symm, by decide,
    fun n i hi => ((mem_positions n i).mp hi).1⟩
  exact (isPow2_iff_form_b h (hw.trans_le (Nat.pow_le_pow_right (by decide) (Nat.sub_le w 1)))).symm

end Sys2Proof.Machine
end

section
/-! The counts and the lists of the parity and of the data positions (40_classifier.md R49, R50), and the classifier on
`[1, 64]` read off the list (R51). -/

namespace Sys2Proof.Machine

/-- Settles O4: the counts one position further, and the closed form of `NumPow2`. -/
theorem positionCounts : Obligations.PositionCounts := by
  refine ⟨fun n => ⟨List.countP_eq_length_filter, rfl, (length_dataPositions n).symm⟩, numPow2_zero,
    numPow2_eq_log2_add_one, fun n h => ?_, by decide, by decide⟩
  obtain ⟨m, rfl⟩ := Nat.exists_eq_add_of_le' h
  rw [dataLen_succ, Nat.add_sub_cancel]
  cases isPow2 (m + 1) <;> rfl

/-- The count of parity positions exceeds `k` exactly when the word reaches position `2^k`. -/
theorem lt_numPow2_iff (k n : Nat) : k < numPow2 n ↔ 2 ^ k ≤ n := by
  rcases Nat.eq_zero_or_pos n with rfl | h
  · simp [numPow2_zero]
  · rw [numPow2_eq_log2_add_one n h, Nat.lt_succ_iff, Nat.le_log2 h.ne']

theorem mem_parityPositions (n i : Nat) : i ∈ parityPositions n ↔ (1 ≤ i ∧ i ≤ n) ∧ isPow2 i = true := by
  simp only [parityPositions, List.mem_map, List.mem_range, lt_numPow2_iff, isPow2_iff_exists]
  constructor
  · rintro ⟨k, hk, rfl⟩
    exact ⟨⟨Nat.one_le_two_pow, hk⟩, k, rfl⟩
  · rintro ⟨⟨_, hle⟩, k, rfl⟩
    exact ⟨k, hle, rfl⟩

theorem parityPositions_pairwise (n : Nat) : (parityPositions n).Pairwise (· < ·) :=
  List.pairwise_lt_range.map _ fun _ _ => Nat.pow_lt_pow_right (by decide)

theorem dataPositions_pairwise (n : Nat) : (dataPositions n).Pairwise (· < ·) := (positions_pairwise n).filter _

/-- The data positions are the positions that are not on the list of parity positions. -/
theorem mem_dataPositions_iff_notMem (n i : Nat) :
    i ∈ dataPositions n ↔ (1 ≤ i ∧ i ≤ n) ∧ i ∉ parityPositions n := by
  rw [mem_dataPositions, mem_parityPositions]
  refine and_congr_right fun hi => ?_
  rw [and_iff_right hi, Bool.not_eq_true]

/-- Settles O5: membership and order of the two lists; the examples are the model's own evaluation. -/
theorem positionLists : Obligations.PositionLists := by
  refine ⟨fun n => ⟨rfl, fun i => ?_, parityPositions_pairwise n, fun i => ?_, dataPositions_pairwise n,
    length_dataPositions n⟩, by decide⟩
  · rw [mem_parityPositions, and_assoc]
  · rw [mem_dataPositions_iff_notMem, and_assoc]

/-- Settles O3: the seven numbers are the parity positions of a word of length 64. -/
theorem classifierUpToSixtyFour : Obligations.ClassifierUpToSixtyFour := by
  intro n h1 h64
  have hlist : parityPositions 64 = [1, 2, 4, 8, 16, 32, 64] := by decide
  rw [← hlist, mem_parityPositions, and_iff_right ⟨h1, h64⟩]

end Sys2Proof.Machine
end

section
/-! Coverage sets of the parity positions (41_parity_generator.md R52 to R54, R56): membership by binary digit, and the parity
as a function of the bits at the data positions. -/

namespace Sys2Proof.Machine

theorem and_two_pow_ne_zero_iff (i k : Nat) : i &&& 2 ^ k ≠ 0 ↔ i.testBit k = true := by
  rw [Nat.and_two_pow]
  cases i.testBit k <;> simp

/-- Coverage read by binary digit (41_parity_generator.md R53). -/
theorem mem_coverage_two_pow (k n i : Nat) :
    i ∈ coverage (2 ^ k) n ↔ (1 ≤ i ∧ i ≤ n) ∧ i ≠ 2 ^ k ∧ i.testBit k = true := by
  rw [mem_coverage, and_two_pow_ne_zero_iff]

theorem two_pow_lt_of_mem_coverage {k n i : Nat} (h : i ∈ coverage (2 ^ k) n) : 2 ^ k < i := by
  obtain ⟨-, hne, hk⟩ := (mem_coverage_two_pow k n i).mp h
  exact Nat.lt_of_le_of_ne (Nat.ge_two_pow_of_testBit hk) hne.symm

/-- A parity position is one of the powers of two of `[1, n]`. -/
theorem mem_parityPositions_iff_exists (n p : Nat) : p ∈ parityPositions n ↔ ∃ k, 2 ^ k ≤ n ∧ p = 2 ^ k := by
  simp only [parityPositions, List.mem_map, List.mem_range, lt_numPow2_iff, eq_comm]

/-- The bit stored at the position itself is no input of its parity (41_parity_generator.md R52). -/
theorem parity_writeAt_self (s : Bitstring) (p : Nat) (v : Bit) : parity (writeAt s p v) p = parity s p := by
  refine parity_congr p (length_writeAt s p v) fun i hi => bitAt_writeAt_other s p i v ?_
  obtain ⟨-, hne, -⟩ := (mem_coverage p _ i).mp hi
  exact hne

/-- Settles O7: coverage by binary digit and the parity's independence of its own stored bit; the tables are the model's own
evaluation. -/
theorem parityCoverage : Obligations.ParityCoverage := by
  refine ⟨fun s p _ => ⟨rfl, fun i hi => ((mem_coverage p _ i).mp hi).1, parity_writeAt_self s p⟩, by decide,
    fun k n i => ?_, fun k n i => two_pow_lt_of_mem_coverage, by decide⟩
  rw [mem_coverage_two_pow, and_assoc]

/-- A power of two has one binary digit at 1, so only its own parity position could cover it, and none covers itself. -/
theorem isPow2_of_mem_coverage {k n i : Nat} (h : i ∈ coverage (2 ^ k) n) : isPow2 i = false := by
  obtain ⟨-, hne, hk⟩ := (mem_coverage_two_pow k n i).mp h
  by_contra hp
  obtain ⟨j, rfl⟩ := (isPow2_iff_exists i).mp (Bool.not_eq_false _ ▸ hp)
  rw [Nat.testBit_two_pow, decide_eq_true_eq] at hk
  exact hne (congrArg (2 ^ ·) hk)

theorem mem_dataPositions_of_mem_coverage {n p i : Nat} (hp : p ∈ parityPositions n) (h : i ∈ coverage p n) :
    i ∈ dataPositions n := by
  obtain ⟨k, -, rfl⟩ := (mem_parityPositions_iff_exists n p).mp hp
  exact (mem_dataPositions n i).mpr ⟨((mem_coverage _ n i).mp h).1, isPow2_of_mem_coverage h⟩

theorem notMem_coverage_of_mem_parityPositions {n p q : Nat} (hp : p ∈ parityPositions n)
    (hq : q ∈ parityPositions n) : q ∉ coverage p n := fun h =>
  ((mem_dataPositions_iff_notMem n q).mp (mem_dataPositions_of_mem_coverage hp h)).2 hq

/-- The parity bits of a word depend on its data bits only (41_parity_generator.md R54). -/
theorem parity_eq_of_data_bits_eq {s t : Bitstring} {p : Nat} (hl : s.length = t.length)
    (h : ∀ i ∈ dataPositions s.length, bitAt s i = bitAt t i) (hp : p ∈ parityPositions s.length) :
    parity s p = parity t p :=
  parity_congr p hl fun i hi => h i (mem_dataPositions_of_mem_coverage hp hi)

/-- The parity positions that cover a data position are the powers of two in its binary expansion
(41_parity_generator.md R54). -/
theorem covered_by_iff {n i : Nat} (hi : i ∈ dataPositions n) (p : Nat) :
    (p ∈ parityPositions n ∧ i ∈ coverage p n) ↔ ∃ k, p = 2 ^ k ∧ i.testBit k = true := by
  obtain ⟨hrange, hdata⟩ := (mem_dataPositions n i).mp hi
  constructor
  · rintro ⟨hp, hcov⟩
    obtain ⟨k, -, rfl⟩ := (mem_parityPositions_iff_exists n p).mp hp
    obtain ⟨-, -, hk⟩ := (mem_coverage_two_pow k n i).mp hcov
    exact ⟨k, rfl, hk⟩
  · rintro ⟨k, rfl, hk⟩
    have hne : i ≠ 2 ^ k := fun he => by simp [(isPow2_iff_exists i).mpr ⟨k, he⟩] at hdata
    have hle : 2 ^ k ≤ n := (Nat.ge_two_pow_of_testBit hk).trans hrange.2
    exact ⟨(mem_parityPositions_iff_exists n _).mpr ⟨k, hle, rfl⟩,
      (mem_coverage_two_pow k n i).mpr ⟨hrange, hne, hk⟩⟩

/-- Settles O8: covered positions are data positions, and a position, being positive, has a binary digit at 1. -/
theorem noParityPositionIsCovered : Obligations.NoParityPositionIsCovered := by
  refine ⟨fun n p hp q => notMem_coverage_of_mem_parityPositions hp,
    fun s t hl h p => parity_eq_of_data_bits_eq hl h, fun n i hi => ⟨?_, covered_by_iff hi⟩⟩
  have hpos : 1 ≤ i := ((mem_dataPositions n i).mp hi).1.1
  obtain ⟨k, hk⟩ := Nat.exists_testBit_of_ne_zero (Nat.ne_of_gt hpos)
  exact ⟨2 ^ k, (covered_by_iff hi _).mpr ⟨k, rfl, hk⟩⟩

end Sys2Proof.Machine
end

section
/-! Empty coverage sets (41_parity_generator.md R56), by the least position that a parity position covers: 3 for position 1,
and `p + 1` for any other parity position `p`. -/

namespace Sys2Proof.Machine

/-- Emptiness read off the least covered position `m`: the coverage set is empty exactly while the word does not reach `m`. -/
theorem coverage_eq_nil_iff_lt {p m n : Nat} (hmem : ∀ l, m ≤ l → m ∈ coverage p l)
    (hleast : ∀ i ∈ coverage p n, m ≤ i) : coverage p n = [] ↔ n < m := by
  rw [List.eq_nil_iff_forall_not_mem]
  constructor
  · intro hnone
    by_contra hle
    exact hnone m (hmem n (Nat.le_of_not_lt hle))
  · intro hlt i hi
    obtain ⟨⟨-, hin⟩, -⟩ := (mem_coverage p n i).mp hi
    exact absurd (hleast i hi) (by omega)

theorem coverage_one_eq_nil_iff (n : Nat) : coverage 1 n = [] ↔ n < 3 := by
  refine coverage_eq_nil_iff_lt (fun l hl => (mem_coverage_two_pow 0 l 3).mpr ⟨⟨by decide, hl⟩, by decide⟩)
    fun i hi => ?_
  obtain ⟨⟨hpos, -⟩, hne, hodd⟩ := (mem_coverage_two_pow 0 n i).mp hi
  rw [Nat.testBit_zero, decide_eq_true_eq] at hodd
  rw [Nat.pow_zero] at hne
  omega

/-- For `k >= 1` the successor of `2^k` still has digit `k` set. -/
theorem coverage_two_pow_succ_eq_nil_iff (k n : Nat) : coverage (2 ^ (k + 1)) n = [] ↔ n < 2 ^ (k + 1) + 1 := by
  have hdigit : (2 ^ (k + 1) + 1).testBit (k + 1) = true := by
    rw [Nat.testBit_two_pow_add_eq, Nat.testBit_succ]
    simp
  exact coverage_eq_nil_iff_lt
    (fun l hl => (mem_coverage_two_pow (k + 1) l _).mpr ⟨⟨Nat.le_add_left 1 _, hl⟩, Nat.succ_ne_self _, hdigit⟩)
    fun i hi => two_pow_lt_of_mem_coverage hi

theorem coverage_eq_nil_iff {n p : Nat} (hp : p ∈ parityPositions n) :
    coverage p n = [] ↔ if p = 1 then n = 1 ∨ n = 2 else n = p := by
  obtain ⟨k, hle, rfl⟩ := (mem_parityPositions_iff_exists n p).mp hp
  cases k with
  | zero =>
    rw [Nat.pow_zero] at hle ⊢
    rw [coverage_one_eq_nil_iff, if_pos rfl]
    omega
  | succ k =>
    have hne : 2 ^ (k + 1) ≠ 1 := (Nat.one_lt_two_pow (Nat.succ_ne_zero k)).ne'
    rw [coverage_two_pow_succ_eq_nil_iff, if_neg hne]
    omega

theorem parity_eq_false_of_coverage_eq_nil {s : Bitstring} {p : Nat} (h : coverage p s.length = []) :
    parity s p = false := by
  rw [parity, h, List.map_nil, xorAll_nil]

/-- Settles O10: the least covered position decides emptiness, and an exclusive or of no bits is 0. -/
theorem emptyCoverage : Obligations.EmptyCoverage := by
  refine ⟨fun n p => coverage_eq_nil_iff, fun s p => parity_eq_false_of_coverage_eq_nil, by decide, by decide, by decide,
    fun s hs => parity_eq_false_of_coverage_eq_nil ?_, fun s hs => parity_eq_false_of_coverage_eq_nil ?_, rfl⟩
  · rw [hs]
    decide
  · rw [hs]
    decide

end Sys2Proof.Machine
end

section
/-! The mismatch bits of a word, the syndrome assembled from them, and the validity and the error position read off it
(42_syndrome.md R60 to R64, R66). -/

namespace Sys2Proof.Machine

/-- An element's own bit taken out of an exclusive or, in whatever place it stands. -/
theorem xorAll_map_erase {l : List Nat} {p : Nat} (f : Nat → Bit) (hp : p ∈ l) :
    xorAll (l.map f) = xor (xorAll ((l.erase p).map f)) (f p) := by
  induction l with
  | nil => simp at hp
  | cons x xs ih =>
    rcases eq_or_ne x p with rfl | hne
    · rw [List.erase_cons_head, List.map_cons, xorAll_cons, Bool.xor_comm]
    · rw [List.erase_cons_tail (by simpa using hne), List.map_cons, List.map_cons, xorAll_cons, xorAll_cons,
        ih (List.mem_of_ne_of_mem hne.symm hp), Bool.xor_assoc]

/-- The positions that share the digit of `p`, `p` itself taken out, are those `p` covers. -/
theorem erase_filter_and_ne_zero (p n : Nat) :
    ((positions n).filter (fun i => (i &&& p) != 0)).erase p = coverage p n := by
  have hnodup : (positions n).Nodup := (positions_pairwise n).imp Nat.ne_of_lt
  rw [(hnodup.filter _).erase_eq_filter, List.filter_filter, coverage]

/-- A position of the word, having a binary digit at 1, shares it with itself (42_syndrome.md R60). -/
theorem mismatch_eq_xorAll {s : Bitstring} {p : Nat} (hp : 1 ≤ p ∧ p ≤ s.length) :
    mismatch s p = xorAll (((positions s.length).filter (fun i => (i &&& p) != 0)).map (bitAt s)) := by
  have hmem : p ∈ (positions s.length).filter (fun i => (i &&& p) != 0) := by
    simpa [hp] using Nat.ne_of_gt hp.1
  rw [xorAll_map_erase _ hmem, erase_filter_and_ne_zero, mismatch, parity]

/-- Settles O11: the first form is the definition, and the second takes the position's own bit into the exclusive or. -/
theorem mismatchForms : Obligations.MismatchForms :=
  ⟨fun s p hp => ⟨rfl, mismatch_eq_xorAll ((mem_parityPositions _ p).mp hp).1⟩, by decide⟩

/-- Digits assembled with the first as the least significant are a sum of powers of two. -/
theorem ofDigits_map_range (w : Nat) (f : Nat → Bit) :
    ofDigits ((List.range w).map f) = ((List.range w).map (fun k => (f k).toNat * 2 ^ k)).sum := by
  induction w generalizing f with
  | zero => rfl
  | succ w ih =>
    have hdouble : ∀ k, (f (k + 1)).toNat * 2 ^ (k + 1) = 2 * ((f (k + 1)).toNat * 2 ^ k) := fun k => by
      rw [Nat.pow_succ', Nat.mul_left_comm]
    simp [List.range_succ_eq_map, ofDigits, ih, Function.comp_def, hdouble, List.sum_map_mul_left]

/-- The mismatch vector by index, as digits of the syndrome (42_syndrome.md R61). -/
theorem mismatchVector_eq_map_range (s : Bitstring) :
    mismatchVector s = (List.range (numPow2 s.length)).map (fun k => mismatch s (2 ^ k)) := by
  rw [mismatchVector, parityPositions, List.map_map]
  rfl

theorem syndrome_eq_sum (s : Bitstring) :
    syndrome s = ((List.range (numPow2 s.length)).map (fun k => (mismatch s (2 ^ k)).toNat * 2 ^ k)).sum := by
  rw [syndrome, mismatchVector_eq_map_range, ofDigits_map_range]

theorem sum_filter_eq_sum_map_toNat_mul (f : Nat → Bit) (l : List Nat) :
    (l.filter f).sum = (l.map (fun p => (f p).toNat * p)).sum := by
  induction l with
  | nil => rfl
  | cons p l ih => cases h : f p <;> simp [h, ih]

/-- Each failing check adds its own position (42_syndrome.md R62). -/
theorem syndrome_eq_sum_failing (s : Bitstring) :
    syndrome s = ((parityPositions s.length).filter (mismatch s)).sum := by
  rw [syndrome_eq_sum, sum_filter_eq_sum_map_toNat_mul, parityPositions, List.map_map]
  rfl

/-- A syndrome has no binary digit beyond the parity positions of its word. -/
theorem testBit_syndrome_eq_false {s : Bitstring} {k : Nat} (h : numPow2 s.length ≤ k) :
    (syndrome s).testBit k = false :=
  Nat.testBit_lt_two_pow ((syndrome_lt_two_pow_numPow2 s).trans_le (Nat.pow_le_pow_right (by decide) h))

theorem testBit_syndrome_eq (s : Bitstring) (k : Nat) :
    (syndrome s).testBit k = (decide (k < numPow2 s.length) && mismatch s (2 ^ k)) := by
  rcases Nat.lt_or_ge k (numPow2 s.length) with h | h
  · simp [testBit_syndrome h, h]
  · simp [testBit_syndrome_eq_false h, Nat.not_lt.mpr h]

/-- Settles O12: the syndrome as a sum over the digits, by digit, and as a sum over the failing positions. -/
theorem syndromeAssembly : Obligations.SyndromeAssembly :=
  ⟨fun s => ⟨syndrome_eq_sum s, testBit_syndrome_eq s, syndrome_eq_sum_failing s⟩, by decide, rfl, rfl⟩

theorem ofDigits_eq_zero_iff (ds : Digits) : ofDigits ds = 0 ↔ ∀ d ∈ ds, d = false := by
  induction ds with
  | nil => simp [ofDigits]
  | cons d ds ih => cases d <;> simp [ofDigits, ih]

theorem valid_iff_syndrome_eq_zero (s : Bitstring) : valid s = true ↔ syndrome s = 0 := beq_iff_eq

theorem valid_iff_mismatchVector (s : Bitstring) : valid s = true ↔ ∀ b ∈ mismatchVector s, b = false := by
  rw [valid_iff_syndrome_eq_zero, syndrome, ofDigits_eq_zero_iff]

theorem mismatch_eq_false_iff (s : Bitstring) (p : Nat) : mismatch s p = false ↔ bitAt s p = parity s p := by
  rw [mismatch, ← Bool.bne_eq_xor, bne_eq_false_iff_eq, eq_comm]

/-- The parity invariant (42_syndrome.md R59, R64). -/
theorem valid_iff_parity (s : Bitstring) :
    valid s = true ↔ ∀ p ∈ parityPositions s.length, bitAt s p = parity s p := by
  rw [valid_iff_mismatchVector, mismatchVector, List.forall_mem_map]
  exact forall₂_congr fun p _ => mismatch_eq_false_iff s p

/-- Settles O13: a number is 0 exactly when all its digits are, and a digit is 0 exactly when stored and recomputed parity
agree. -/
theorem validIsParityInvariant : Obligations.ValidIsParityInvariant :=
  ⟨fun s => ⟨valid_iff_syndrome_eq_zero s, valid_iff_mismatchVector s, valid_iff_parity s⟩, rfl⟩

theorem errPos_le_length (s : Bitstring) : errPos s ≤ s.length := by
  unfold errPos
  split
  · omega
  · exact Nat.zero_le _

/-- Settles O15: the bound is the definition's own test; the examples are the model's evaluation. -/
theorem errorPositionRange : Obligations.ErrorPositionRange :=
  ⟨fun s => ⟨rfl, errPos_le_length s⟩, by decide⟩

end Sys2Proof.Machine
end

section
/-! The syndrome in closed form, by its binary digits, and its linearity (42_syndrome.md R68). -/

namespace Sys2Proof.Machine

theorem testBit_xorOf (qs : List Nat) (k : Nat) : (xorOf qs).testBit k = xorAll (qs.map (·.testBit k)) := by
  induction qs with
  | nil => exact Nat.zero_testBit k
  | cons q qs ih => rw [List.map_cons, xorAll_cons, ← ih, ← Nat.testBit_xor]; rfl

/-- Either condition may do the selecting: both sides count, modulo 2, the elements that meet both. -/
theorem xorAll_map_filter_comm (f g : Nat → Bit) (l : List Nat) :
    xorAll ((l.filter f).map g) = xorAll ((l.filter g).map f) := by
  induction l with
  | nil => rfl
  | cons x xs ih => cases hf : f x <;> cases hg : g x <;> simp [hf, hg, ih]

theorem filter_and_two_pow (k : Nat) (l : List Nat) :
    l.filter (fun i => (i &&& 2 ^ k) != 0) = l.filter (·.testBit k) := by
  refine List.filter_congr fun i _ => ?_
  rw [Bool.eq_iff_iff, bne_iff_ne, and_two_pow_ne_zero_iff]

/-- No position of a word has a binary digit beyond those of its parity positions. -/
theorem filter_testBit_eq_nil {n k : Nat} (h : numPow2 n ≤ k) : (positions n).filter (·.testBit k) = [] := by
  refine List.filter_eq_nil_iff.mpr fun i hi => ?_
  have hlt : i < 2 ^ numPow2 n := ((mem_positions n i).mp hi).2.trans_lt (lt_two_pow_numPow2 n)
  rw [Nat.testBit_lt_two_pow (hlt.trans_le (Nat.pow_le_pow_right (by decide) h))]
  decide

/-- A digit of the syndrome reads the positions that have that digit. -/
theorem testBit_syndrome_eq_xorAll (s : Bitstring) (k : Nat) :
    (syndrome s).testBit k = xorAll (((positions s.length).filter (·.testBit k)).map (bitAt s)) := by
  rcases Nat.lt_or_ge k (numPow2 s.length) with h | h
  · rw [testBit_syndrome h, mismatch_eq_xorAll ⟨Nat.one_le_two_pow, (lt_numPow2_iff k _).mp h⟩, filter_and_two_pow]
  · rw [testBit_syndrome_eq_false h, filter_testBit_eq_nil h]
    rfl

/-- The closed form, digit by digit: each side counts, modulo 2, the positions that hold a 1 and have the digit. -/
theorem syndrome_eq_xorOfOnes (s : Bitstring) : syndrome s = xorOfOnes s := by
  refine Nat.eq_of_testBit_eq fun k => ?_
  rw [testBit_syndrome_eq_xorAll, xorAll_map_filter_comm, ← testBit_xorOf]
  rfl

theorem bitAt_xorWord {s t : Bitstring} (hl : s.length = t.length) (i : Nat) :
    bitAt (xorWord s t) i = xor (bitAt s i) (bitAt t i) := by
  cases i with
  | zero => rfl
  | succ i =>
    simp only [bitAt_succ, xorWord, List.getD_eq_getElem?_getD, List.getElem?_zipWith]
    rcases Nat.lt_or_ge i s.length with h | h
    · simp [h, hl ▸ h]
    · simp [h, hl ▸ h]

@[simp] theorem length_xorWord {s t : Bitstring} (hl : s.length = t.length) : (xorWord s t).length = s.length := by
  simp [xorWord, hl]

/-- A position selected by both conditions cancels. -/
theorem xorOf_filter_xor (f g : Nat → Bit) (l : List Nat) :
    xorOf (l.filter (fun i => xor (f i) (g i))) = xorOf (l.filter f) ^^^ xorOf (l.filter g) := by
  induction l with
  | nil => exact (Nat.xor_self 0).symm
  | cons x xs ih =>
    simp only [xorOf] at ih ⊢
    cases hf : f x <;> cases hg : g x <;> simp [hf, hg, ih, Nat.xor_assoc, Nat.xor_left_comm]

theorem syndrome_xorWord {s t : Bitstring} (hl : s.length = t.length) :
    syndrome (xorWord s t) = syndrome s ^^^ syndrome t := by
  have hbits : bitAt (xorWord s t) = fun i => xor (bitAt s i) (bitAt t i) := funext (bitAt_xorWord hl)
  simp only [syndrome_eq_xorOfOnes, xorOfOnes, length_xorWord hl, hbits, ← hl]
  exact xorOf_filter_xor _ _ _

/-- Settles O17: the closed form, and the linearity read off it. -/
theorem syndromeClosedForm : Obligations.SyndromeClosedForm :=
  ⟨syndrome_eq_xorOfOnes, fun _ _ => syndrome_xorWord⟩

end Sys2Proof.Machine
end

section
/-! The syndrome after flips (42_syndrome.md R69): a flip is the exclusive or with a mask whose syndrome is the position. -/

namespace Sys2Proof.Machine

@[simp] theorem length_flipMask (n e : Nat) : (flipMask n e).length = n := by simp [flipMask]

theorem bitAt_flipMask {n i : Nat} (e : Nat) (h1 : 1 ≤ i) (hn : i ≤ n) : bitAt (flipMask n e) i = (e == i) := by
  obtain ⟨j, rfl⟩ := Nat.exists_eq_add_of_le' h1
  have hget : (positions n)[j]? = some (j + 1) := by
    rw [positions, List.getElem?_range' hn, Nat.one_mul, Nat.add_comm]
  rw [bitAt_succ, List.getD_eq_getElem?_getD, flipMask, List.getElem?_map, hget]
  rfl

/-- The one position of the flip mask that holds a 1 is the flipped one. -/
theorem syndrome_flipMask {n q : Nat} (h1 : 1 ≤ q) (hn : q ≤ n) : syndrome (flipMask n q) = q := by
  have hone : (positions n).filter (bitAt (flipMask n q)) = [q] := by
    have hbits : ∀ i ∈ positions n, bitAt (flipMask n q) i = (i == q) := fun i hi => by
      obtain ⟨hi1, hin⟩ := (mem_positions n i).mp hi
      rw [bitAt_flipMask q hi1 hin, Bool.beq_comm]
    rw [List.filter_congr hbits, List.filter_beq, List.count_eq_one_of_mem
      ((positions_pairwise n).imp Nat.ne_of_lt) ((mem_positions n q).mpr ⟨h1, hn⟩), List.replicate_one]
  rw [syndrome_eq_xorOfOnes, xorOfOnes, length_flipMask, hone]
  exact Nat.xor_zero q

/-- The corrector flips exactly the bit at `e` (43_correct.md R70). -/
theorem bitAt_flipBit {s : Bitstring} {i : Nat} (e : Nat) (h1 : 1 ≤ i) (hn : i ≤ s.length) :
    bitAt (flipBit s e) i = xor (bitAt s i) (e == i) := by
  unfold flipBit
  rcases eq_or_ne e i with rfl | hne
  · rw [if_pos ⟨h1, hn⟩, bitAt_writeAt_same _ _ _ h1 hn, beq_self_eq_true, Bool.xor_true]
  · rw [beq_false_of_ne hne, Bool.xor_false]
    split
    · exact bitAt_writeAt_other s e i _ hne.symm
    · rfl

/-- A flip is the exclusive or with the flip mask (43_correct.md R70). -/
theorem flipBit_eq_xorWord (s : Bitstring) (e : Nat) : flipBit s e = xorWord s (flipMask s.length e) := by
  have hl : s.length = (flipMask s.length e).length := by simp
  refine ext_bitAt (by rw [length_flipBit, length_xorWord hl]) fun i h1 hn => ?_
  rw [length_flipBit] at hn
  rw [bitAt_flipBit e h1 hn, bitAt_xorWord hl, bitAt_flipMask e h1 hn]

/-- A flip of a position of the word, or of no position, adds that position to the syndrome (42_syndrome.md R67). -/
theorem syndrome_flipBit {s : Bitstring} {q : Nat} (h : q ≤ s.length) : syndrome (flipBit s q) = syndrome s ^^^ q := by
  rcases Nat.eq_zero_or_pos q with rfl | hpos
  · rw [Nat.xor_zero]; rfl
  · rw [flipBit_eq_xorWord, syndrome_xorWord (by simp), syndrome_flipMask hpos h]

theorem syndrome_flipAll {s : Bitstring} {qs : List Nat} (h : ∀ q ∈ qs, q ≤ s.length) :
    syndrome (flipAll s qs) = syndrome s ^^^ xorOf qs := by
  induction qs generalizing s with
  | nil => exact (Nat.xor_zero _).symm
  | cons q qs ih =>
    obtain ⟨hq, hqs⟩ := List.forall_mem_cons.mp h
    calc syndrome (flipAll (flipBit s q) qs)
        = syndrome (flipBit s q) ^^^ xorOf qs := ih (by simpa using hqs)
      _ = syndrome s ^^^ (q ^^^ xorOf qs) := by rw [syndrome_flipBit hq, Nat.xor_assoc]

/-- Settles O18: each flip adds its position to a syndrome that was 0; two positions add up to a third number. -/
theorem multipleFlipsSyndrome : Obligations.MultipleFlipsSyndrome := by
  refine ⟨fun c qs hc _ hqs => ?_, fun q r hq hr hne => ?_, by decide⟩
  · rw [syndrome_flipAll fun q hq => (hqs q hq).2, (valid_iff_syndrome_eq_zero c).mp hc, Nat.zero_xor]
  · have htwo : xorOf [q, r] = q ^^^ r := congrArg (q ^^^ ·) (Nat.xor_zero r)
    rw [htwo]
    refine ⟨by simpa using hne, ?_, ?_⟩
    · simpa using Nat.ne_of_gt hr
    · simpa using Nat.ne_of_gt hq

end Sys2Proof.Machine
end

section
/-! The range of the syndrome (42_syndrome.md R65), and one flip of a valid codeword (R67). -/

namespace Sys2Proof.Machine

theorem syndrome_replicate_false (n : Nat) : syndrome (List.replicate n false) = 0 := by
  have hnone : (positions n).filter (bitAt (List.replicate n false)) = [] := by
    refine List.filter_eq_nil_iff.mpr fun i hi => ?_
    obtain ⟨j, rfl⟩ := Nat.exists_eq_add_of_le' ((mem_positions n i).mp hi).1
    simp
  rw [syndrome_eq_xorOfOnes, xorOfOnes, List.length_replicate, hnone, List.foldr_nil]

/-- The exclusive or with its highest power of two takes the highest digit off a number. -/
theorem xor_two_pow_lt {v k : Nat} (hle : 2 ^ k ≤ v) (hlt : v < 2 ^ (k + 1)) : v ^^^ 2 ^ k < 2 ^ k := by
  have hquot : v / 2 ^ k = 1 := Nat.div_eq_of_lt_le (by rwa [Nat.one_mul]) (by rwa [← Nat.pow_succ'])
  refine Nat.lt_of_div_eq_zero (Nat.two_pow_pos k) ?_
  rw [Nat.xor_div_two_pow, hquot, Nat.div_self (Nat.two_pow_pos k), Nat.xor_self]

/-- Every value below `2^K` is met: one up to the length by a single flip of the word of zeros, one past it by a second flip, at
the last parity position, whose digit it has (42_syndrome.md R65). -/
theorem exists_syndrome_eq {n v : Nat} (hv : v < 2 ^ numPow2 n) : ∃ s : Bitstring, s.length = n ∧ syndrome s = v := by
  rcases Nat.lt_or_ge n v with hpast | hin
  · obtain ⟨k, hk⟩ : ∃ k, numPow2 n = k + 1 :=
      Nat.exists_eq_succ_of_ne_zero fun h => by rw [h] at hv; omega
    have hlast : 2 ^ k ≤ n := (lt_numPow2_iff k n).mp (by omega)
    have hrest : v ^^^ 2 ^ k ≤ n := (xor_two_pow_lt (hlast.trans hpast.le) (hk ▸ hv)).le.trans hlast
    refine ⟨flipBit (flipBit (List.replicate n false) (v ^^^ 2 ^ k)) (2 ^ k), by simp, ?_⟩
    rw [syndrome_flipBit (by simpa using hlast), syndrome_flipBit (by simpa using hrest), syndrome_replicate_false,
      Nat.zero_xor, Nat.xor_assoc, Nat.xor_self, Nat.xor_zero]
  · refine ⟨flipBit (List.replicate n false) v, by simp, ?_⟩
    rw [syndrome_flipBit (by simpa using hin), syndrome_replicate_false, Nat.zero_xor]

theorem numPow2_two_pow_sub_one (k : Nat) : numPow2 (2 ^ k - 1) = k := by
  have hpos := Nat.two_pow_pos k
  refine eq_of_forall_lt_iff fun j => ?_
  rw [lt_numPow2_iff, Nat.le_sub_one_iff_lt hpos, Nat.pow_lt_pow_iff_right (by decide)]

theorem perfectLength_iff (n : Nat) : PerfectLength n ↔ n = 2 ^ numPow2 n - 1 := by
  constructor
  · rintro ⟨k, rfl⟩
    rw [numPow2_two_pow_sub_one]
  · exact fun h => ⟨_, h⟩

/-- A syndrome past the end exists exactly when the length is not the greatest number of its digits (42_syndrome.md R65). -/
theorem exists_length_lt_syndrome_iff (n : Nat) :
    (∃ s : Bitstring, s.length = n ∧ n < syndrome s) ↔ ¬ PerfectLength n := by
  have hn := lt_two_pow_numPow2 n
  rw [perfectLength_iff]
  constructor
  · rintro ⟨s, rfl, hs⟩
    have hsyn := syndrome_lt_two_pow_numPow2 s
    omega
  · intro hne
    obtain ⟨s, hl, hs⟩ := exists_syndrome_eq (n := n) (v := 2 ^ numPow2 n - 1) (by omega)
    exact ⟨s, hl, by omega⟩

/-- Settles O14: the count `K` of parity positions has `2^(K-1) <= n < 2^K`, and the syndromes are the numbers of `K` digits. -/
theorem syndromeRange : Obligations.SyndromeRange := by
  intro n h
  have hlt := lt_two_pow_numPow2 n
  have hlog := numPow2_eq_log2_add_one n h
  have hle : 2 ^ Nat.log2 n ≤ n := Nat.log2_self_le (by omega)
  have hdouble : 2 ^ numPow2 n = 2 * 2 ^ Nat.log2 n := by rw [hlog, Nat.pow_succ']
  refine ⟨fun s hs => ?_, hlog, by omega, by omega, fun v hv => exists_syndrome_eq (by omega),
    exists_length_lt_syndrome_iff n, fun nmax => numPow2_le_portWidth⟩
  have hsyn := syndrome_lt_two_pow_numPow2 s
  rw [hs] at hsyn
  omega

theorem errPos_of_syndrome_eq {s : Bitstring} {q : Nat} (hs : syndrome s = q) (h1 : 1 ≤ q) (hn : q ≤ s.length) :
    errPos s = q := by
  rw [errPos, hs, if_pos ⟨h1, hn⟩]

/-- One flip of a valid codeword makes the syndrome its position (42_syndrome.md R67). -/
theorem syndrome_flipBit_of_valid {c : Bitstring} {q : Nat} (hc : valid c = true) (h : q ≤ c.length) :
    syndrome (flipBit c q) = q := by
  rw [syndrome_flipBit h, (valid_iff_syndrome_eq_zero c).mp hc, Nat.zero_xor]

/-- At most one flip of a valid codeword leaves the syndrome within the length. -/
theorem syndrome_flipBit_le_of_valid {c : Bitstring} (hc : valid c = true) (q : Nat) :
    syndrome (flipBit c q) ≤ c.length := by
  rcases Nat.lt_or_ge c.length q with h | h
  · rw [flipBit, if_neg (by omega), (valid_iff_syndrome_eq_zero c).mp hc]
    exact Nat.zero_le _
  · rwa [syndrome_flipBit_of_valid hc h]

/-- Settles O16: a single flip gives a syndrome within the length, so one past the end has another origin. -/
theorem singleFlipLaw : Obligations.SingleFlipLaw := by
  refine ⟨fun c hc q h1 hn => ?_, fun s hs c hl hc => ⟨?_, ?_⟩, exists_length_lt_syndrome_iff⟩
  · have hsyn := syndrome_flipBit_of_valid hc hn
    exact ⟨hsyn, errPos_of_syndrome_eq hsyn h1 (by rwa [length_flipBit])⟩
  · rintro rfl
    rw [(valid_iff_syndrome_eq_zero s).mp hc] at hs
    omega
  · rintro q rfl
    have hle := syndrome_flipBit_le_of_valid hc q
    omega

end Sys2Proof.Machine
end

section
/-! What an instruction gives (30_encoding.md R32, R36): within capacity its result, read back off the wires of the response;
and the operand of a well-formed instruction, which has the length asked for. -/

namespace Sys2Proof.Machine

theorem errpos_resultFor_le_lenOut (i : Instr) : (resultFor i).errpos ≤ (resultFor i).lenOut := by
  cases i with
  | encode len din => exact Nat.zero_le _
  | decode len din => exact Nat.zero_le _
  | correct len din => exact errPos_le_length _

theorem errposOf_drive {inst : Instance} {r : Result} (h : holdsWord inst r.errpos = true) :
    errposOf (drive inst r) = r.errpos := ofDigits_onPort h

theorem resultOf_drive {inst : Instance} {r : Result} (hlen : r.lenOut = r.dout.length)
    (h : holdsWord inst r.lenOut = true) : resultOf (drive inst r) = r.dout := by
  rw [resultOf, lenOutOf_drive h, drive_dout, hlen, take_onBus]

/-- A result that fits the bus, with its error position in the word, stands on the wires of the instance. -/
theorem responseFits_drive {inst : Instance} {r : Result} (hlen : r.lenOut = r.dout.length)
    (h : holdsWord inst r.lenOut = true) (herr : r.errpos ≤ r.lenOut) : responseFits inst (drive inst r) = true := by
  have hbus : (onBus inst r.dout).length = busWires inst r.lenOut := by
    rw [hlen] at h ⊢
    exact length_onBus inst r.dout h
  have hspare : ((onBus inst r.dout).drop r.lenOut).all (fun b => !b) = true := by simp [onBus, hlen]
  simp [responseFits, lenOutOf_drive h, errposOf_drive (holdsWord_of_le herr h), hbus, h, herr, hspare]

/-- Within capacity an instruction gives the result of its operation. -/
theorem gives_resultFor {s : State} {i : Instr} (h : withinCapacity s.inst i = true) :
    Gives s i (resultFor i).dout (resultFor i).lenOut (resultFor i).errpos := by
  have hword := holdsWord_lenOut_resultFor h
  have herr := errpos_resultFor_le_lenOut i
  refine ⟨drive s.inst (resultFor i), ?_, resultOf_drive (lenOut_resultFor i) hword, lenOutOf_drive hword,
    errposOf_drive (holdsWord_of_le herr hword), responseFits_drive (lenOut_resultFor i) hword herr⟩
  rw [exec_eq_answer, answer_eq_next]
  exact ⟨_, (respond_eq_ok _ _ _ _).mpr ⟨h, rfl⟩, rfl⟩

/-- A well-formed instruction has one bit for each wire of `din` (30_encoding.md R31). -/
theorem length_din_of_wellFormed {inst : Instance} {i : Instr} (h : WellFormed inst i = true) :
    i.din.length = busWires inst i.len := by
  rw [WellFormed, Bool.and_eq_true] at h
  exact beq_iff_eq.mp h.2

/-- A length the bus holds is the length of the operand: the bus has wires enough (30_encoding.md R33). -/
theorem length_operand {inst : Instance} {len : Nat} {din : Bitstring} (hdin : din.length = busWires inst len)
    (h : holdsWord inst len = true) : (operand len din).length = len := by
  have hle : len ≤ busWires inst len := by
    cases inst with
    | unbounded => exact Nat.le_refl len
    | bounded nmax => exact of_decide_eq_true h
  rw [operand, List.length_take, hdin, Nat.min_eq_left hle]

end Sys2Proof.Machine
end

section
/-! The corrector (43_correct.md R70) and the error position it is given (42_syndrome.md R66). -/

namespace Sys2Proof.Machine

/-- Position 0 and a position past the end name no bit of the word. -/
theorem flipBit_eq_self {s : Bitstring} {e : Nat} (h : e = 0 ∨ s.length < e) : flipBit s e = s :=
  if_neg (by omega)

/-- A flip undoes itself. -/
@[simp] theorem flipBit_flipBit (s : Bitstring) (e : Nat) : flipBit (flipBit s e) e = s := by
  refine ext_bitAt (by simp) fun i h1 hn => ?_
  rw [length_flipBit, length_flipBit] at hn
  rw [bitAt_flipBit e h1 (by rwa [length_flipBit]), bitAt_flipBit e h1 hn, Bool.xor_assoc, Bool.xor_self, Bool.xor_false]

/-- Settles O19: the bits of a flip by position; the mask is its exclusive-or form. -/
theorem flipIsOneBit : Obligations.FlipIsOneBit := by
  refine ⟨fun s e => ⟨length_flipBit s e, fun i h1 hn => ?_, flipBit_eq_xorWord s e, flipBit_eq_self⟩, by decide⟩
  rw [bitAt_flipBit e h1 hn]
  split
  case isTrue h => rw [h, beq_self_eq_true, Bool.xor_true]
  case isFalse h => rw [beq_false_of_ne (Ne.symm h), Bool.xor_false]

/-- The error position of a word whose syndrome and length are known. -/
theorem errPos_eq_ite {s : Bitstring} {v n : Nat} (hs : syndrome s = v) (hn : s.length = n) :
    errPos s = if 1 ≤ v ∧ v ≤ n then v else 0 := by
  rw [errPos, hs, hn]

theorem errPos_of_syndrome_le {s : Bitstring} (h : syndrome s ≤ s.length) : errPos s = syndrome s := by
  unfold errPos
  split <;> omega

theorem errPos_eq_zero_iff (s : Bitstring) : errPos s = 0 ↔ syndrome s = 0 ∨ s.length < syndrome s := by
  unfold errPos
  split <;> omega

/-- One correction takes away a syndrome within the length and leaves one past the end (43_correct.md R77). -/
theorem valid_flipBit_errPos_iff (s : Bitstring) :
    valid (flipBit s (errPos s)) = true ↔ syndrome s ≤ s.length := by
  rw [valid_iff_syndrome_eq_zero, syndrome_flipBit (errPos_le_length s), Nat.xor_eq_zero_iff]
  constructor
  · exact fun h => h ▸ errPos_le_length s
  · exact fun h => (errPos_of_syndrome_le h).symm

/-- A corrected word has nothing left to correct: it is valid, or it was not changed (43_correct.md R77). -/
theorem errPos_flipBit_errPos (s : Bitstring) : errPos (flipBit s (errPos s)) = 0 := by
  rcases Nat.lt_or_ge s.length (syndrome s) with hpast | hin
  · have hzero : errPos s = 0 := (errPos_eq_zero_iff s).mpr (.inr hpast)
    rwa [hzero, flipBit_eq_self (.inl rfl)]
  · have hvalid := (valid_flipBit_errPos_iff s).mpr hin
    exact (errPos_eq_zero_iff _).mpr (.inl ((valid_iff_syndrome_eq_zero _).mp hvalid))

end Sys2Proof.Machine
end

section
/-! CORRECT as an operation (43_correct.md R71 to R77): every statement is about the error position of the operand. -/

namespace Sys2Proof.Machine

theorem length_operand_of_correct {inst : Instance} {len : Nat} {din : Bitstring}
    (hwf : WellFormed inst (.correct len din) = true) (hcap : holdsWord inst len = true) :
    (operand len din).length = len :=
  length_operand (length_din_of_wellFormed hwf) hcap

section OperandWithinCapacity
variable {s : State} {len : Nat} {din : Bitstring}
variable (hwf : WellFormed s.inst (.correct len din) = true) (hcap : holdsWord s.inst len = true)
include hwf hcap

/-- CORRECT gives the operand flipped at its error position, the operand's length and that position (43_correct.md R71). -/
theorem gives_correct {e : Nat} (he : errPos (operand len din) = e) :
    Gives s (.correct len din) (flipBit (operand len din) e) len e := by
  have hgives := gives_resultFor (s := s) (i := .correct len din) hcap
  rwa [resultFor, correctResult, length_operand_of_correct hwf hcap, he] at hgives

theorem gives_correct_unchanged (he : errPos (operand len din) = 0) :
    Gives s (.correct len din) (operand len din) len 0 := gives_correct hwf hcap he

end OperandWithinCapacity

/-- Settles O20: the sum over the digits is the syndrome, and the length of the operand is `len`. -/
theorem correctResponse : Obligations.CorrectResponse := by
  intro s len din hwf hcap
  have hlen := length_operand_of_correct hwf hcap
  have hsyn := syndrome_eq_sum (operand len din)
  rw [hlen] at hsyn
  exact gives_correct hwf hcap (errPos_eq_ite hsyn hlen)

/-- Settles O21: both syndromes make the error position 0; what makes one exceed the length is the single-flip law. -/
theorem correctLeavesUnchanged : Obligations.CorrectLeavesUnchanged := by
  intro s len din hwf hcap
  have hlen := length_operand_of_correct hwf hcap
  refine ⟨fun hzero => ?_, fun hpast => ?_⟩
  · exact gives_correct_unchanged hwf hcap ((errPos_eq_zero_iff _).mpr (.inl hzero))
  · have hpastEnd : (operand len din).length < syndrome (operand len din) := by rwa [hlen]
    obtain ⟨-, htwoFlips, -⟩ := singleFlipLaw
    refine ⟨gives_correct_unchanged hwf hcap ((errPos_eq_zero_iff _).mpr (.inr hpastEnd)), ?_, fun c hc => ?_⟩
    · exact (exists_length_lt_syndrome_iff len).mp ⟨_, hlen, hpast⟩
    · exact htwoFlips _ hpastEnd c (hc.trans hlen.symm)

/-- Settles O22: the error position of a flipped codeword is the flip, and a second flip undoes it. -/
theorem singleErrorIsCorrected : Obligations.SingleErrorIsCorrected := by
  intro s c len din hwf hcap hlen hvalid
  refine ⟨fun hoperand => ?_, fun q h1 hn hoperand => ?_⟩
  · have hzero : errPos (operand len din) = 0 := by
      rw [hoperand, errPos_eq_zero_iff]
      exact .inl ((valid_iff_syndrome_eq_zero c).mp hvalid)
    exact hoperand ▸ gives_correct_unchanged hwf hcap hzero
  · obtain ⟨hlaw, -, -⟩ := singleFlipLaw
    obtain ⟨-, herr⟩ := hlaw c hvalid q h1 (hlen ▸ hn)
    have hgives := gives_correct hwf hcap (hoperand ▸ herr)
    rwa [hoperand, flipBit_flipBit] at hgives

/-- Settles O23: the syndrome after the flips is the exclusive or of their positions; the example is the model's own
evaluation. -/
theorem multipleErrorsResponse : Obligations.MultipleErrorsResponse := by
  refine ⟨fun s c qs len din hwf hcap hlen hvalid hnodup hqs hoperand => ?_, by decide⟩
  obtain ⟨hlaw, -, -⟩ := multipleFlipsSyndrome
  have hsyn : syndrome (operand len din) = xorOf qs := hoperand ▸ hlaw c qs hvalid hnodup (hlen ▸ hqs)
  rw [← hoperand]
  exact gives_correct hwf hcap (errPos_eq_ite hsyn (length_operand_of_correct hwf hcap))

/-- Settles O24: after one correction the error position is 0, and the syndrome is 0 exactly if it was within the length. -/
theorem correctionIsStable : Obligations.CorrectionIsStable := by
  intro s len din hwf hcap
  have hvalid := valid_flipBit_errPos_iff (operand len din)
  refine ⟨_, _, gives_correct hwf hcap rfl, fun s' din' hinst hwf' hoperand => ?_, ?_, ?_⟩
  · rw [← hoperand]
    exact gives_correct_unchanged hwf' (hinst ▸ hcap) (hoperand ▸ errPos_flipBit_errPos _)
  · rcases eq_or_ne (errPos (operand len din)) 0 with hzero | hne
    · exact .inr ⟨hzero, flipBit_eq_self (.inl hzero)⟩
    · have hin := mt (fun h => (errPos_eq_zero_iff (operand len din)).mpr (.inr h)) hne
      exact .inl ⟨hne, hvalid.mpr (Nat.le_of_not_lt hin)⟩
  · rwa [length_operand_of_correct hwf hcap] at hvalid

/-- A last position that is a parity position covers nothing, so a valid codeword holds 0 there (43_correct.md R78). -/
theorem bitAt_last_of_valid {s : Bitstring} (hp : isPow2 s.length = true) (hvalid : valid s = true) :
    bitAt s s.length = false := by
  have hmem : s.length ∈ parityPositions s.length :=
    (mem_parityPositions _ _).mpr ⟨⟨((isPow2_iff_form_c _).mp hp).1, Nat.le_refl _⟩, hp⟩
  have hempty : coverage s.length s.length = [] := by
    refine (coverage_eq_nil_iff hmem).mpr ?_
    split
    case isTrue h => exact .inl h
    case isFalse => rfl
  rw [(valid_iff_parity s).mp hvalid _ hmem, parity_eq_false_of_coverage_eq_nil hempty]

/-- Settles O25: the rows are the model's own evaluation; the last bit is a parity over nothing. -/
theorem correctCornerLengths : Obligations.CorrectCornerLengths := by
  exact ⟨by decide, by decide, by decide, by decide, by decide, by decide, by decide, by decide, by decide,
    fun s => bitAt_last_of_valid⟩

end Sys2Proof.Machine
end

section
/-! `EncLen` and `DataLen` undo each other at the data positions, and the codeword length by its formula and its tables
(44_encode.md R80). -/

namespace Sys2Proof.Machine

theorem dataLen_succ_of_parity {n : Nat} (h : isPow2 (n + 1) = true) : dataLen (n + 1) = dataLen n := by
  simp [dataLen_succ, h]

theorem dataLen_succ_of_data {n : Nat} (h : isPow2 (n + 1) = false) : dataLen (n + 1) = dataLen n + 1 := by
  simp [dataLen_succ, h]

/-- A data position has more data positions up to it than any position before it. -/
theorem dataLen_lt_of_data {m i : Nat} (hm : m < i) (h : isPow2 i = false) : dataLen m < dataLen i := by
  obtain ⟨n, rfl⟩ := Nat.exists_eq_add_of_le' (Nat.one_le_of_lt hm)
  rw [dataLen_succ_of_data h]
  exact Nat.lt_succ_of_le (dataLen_mono (Nat.le_of_lt_succ hm))

/-- A position that is no parity position is the first with its data length. -/
theorem encLen_dataLen {i : Nat} (h : isPow2 i = false) : encLen (dataLen i) = i := by
  refine Nat.le_antisymm ((encLen_le_iff _ i).mpr (Nat.le_refl _)) (Nat.le_of_not_lt fun hlt => ?_)
  have hless := dataLen_lt_of_data hlt h
  rw [dataLen_encLen] at hless
  exact Nat.lt_irrefl _ hless

theorem dataLen_eq_sub_log2 (n : Nat) : dataLen n = n - (Nat.log2 n + 1) := by
  rcases Nat.eq_zero_or_pos n with rfl | h
  · rfl
  · rw [dataLen, numPow2_eq_log2_add_one n h]

/-- A table of `EncLen` is checked from its values: none is a parity position, and each has the data length listed. -/
theorem map_encLen_eq {ks ns : List Nat} (hdata : ∀ n ∈ ns, isPow2 n = false)
    (hlen : ns.map (fun n => n - (Nat.log2 n + 1)) = ks) : ks.map encLen = ns := by
  rw [← hlen, List.map_map, List.map_congr_left (g := id), List.map_id]
  intro n hn
  rw [Function.comp_apply, ← dataLen_eq_sub_log2, encLen_dataLen (hdata n hn), id_eq]

theorem encLen_strictMono : StrictMono encLen := fun k m h => by
  rw [← Nat.not_le, encLen_le_iff, dataLen_encLen, Nat.not_le]
  exact h

theorem encLen_eq_add_numPow2 (k : Nat) : encLen k = k + numPow2 (encLen k) := by
  have hk := dataLen_encLen k
  have hle := numPow2_le (encLen k)
  rw [dataLen] at hk
  omega

theorem le_encLen (k : Nat) : k ≤ encLen k := (Nat.le_add_right k _).trans_eq (encLen_eq_add_numPow2 k).symm

/-- With `r` parity positions a word of length `2^r - 1` has room for the data, so a shorter codeword has no more. -/
theorem numPow2_encLen_le {k r : Nat} (h : k + r + 1 ≤ 2 ^ r) : numPow2 (encLen k) ≤ r := by
  have hcount := numPow2_two_pow_sub_one r
  have hroom : encLen k ≤ 2 ^ r - 1 := by
    rw [encLen_le_iff, dataLen, hcount]
    omega
  calc numPow2 (encLen k) ≤ numPow2 (2 ^ r - 1) := numPow2_mono hroom
    _ = r := hcount

theorem exists_encLen_eq_iff (n : Nat) : (∃ k, encLen k = n) ↔ n = 0 ∨ isPow2 n = false := by
  constructor
  · rintro ⟨k, rfl⟩
    rcases Nat.eq_zero_or_pos k with rfl | hk
    · exact .inl rfl
    · exact .inr (isPow2_encLen hk)
  · rintro (rfl | hp)
    · exact ⟨0, rfl⟩
    · exact ⟨_, encLen_dataLen hp⟩

/-- Settles O28: `EncLen` is the lower adjoint of `DataLen`, and its inverse away from the parity positions. -/
theorem codewordLength : Obligations.CodewordLength := by
  refine ⟨fun k => ⟨dataLen_encLen k, fun m hm => (encLen_le_iff k m).mpr hm.ge⟩, rfl, fun k _ => ?_,
    fun k m h => encLen_strictMono h, exists_encLen_eq_iff, map_encLen_eq (by decide) (by decide),
    map_encLen_eq (by decide) (by decide)⟩
  have hlen := encLen_eq_add_numPow2 k
  refine ⟨hlen, ?_, fun r => numPow2_encLen_le⟩
  rw [← hlen]
  exact lt_two_pow_numPow2 (encLen k)

end Sys2Proof.Machine
end

section
/-! The interleaver's closed form (44_encode.md R79): each position of the layout read off the walk that placed it. -/

namespace Sys2Proof.Machine

@[simp] theorem bitAt_cons_one (b : Bit) (s : Bitstring) : bitAt (b :: s) 1 = b := rfl

theorem bitAt_cons_succ (b : Bit) (s : Bitstring) {i : Nat} (h : 1 ≤ i) : bitAt (b :: s) (i + 1) = bitAt s i := by
  obtain ⟨j, rfl⟩ := Nat.exists_eq_add_of_le' h
  rfl

/-- The walk from position `n + 1` leaves 0 in a parity slot; any other position takes the data bit whose number is the count
of data positions walked so far. -/
theorem bitAt_layoutWalk {steps n i : Nat} {d : Bitstring} (h1 : 1 ≤ i)
    (hi : i ≤ (layoutWalk steps (n + 1) d).length) :
    bitAt (layoutWalk steps (n + 1) d) i = if isPow2 (n + i) then false else bitAt d (dataLen (n + i) - dataLen n) := by
  induction steps generalizing n i d with
  | zero =>
    have hnone : layoutWalk 0 (n + 1) d = [] := by cases d <;> rfl
    rw [hnone, List.length_nil] at hi
    omega
  | succ steps ih =>
    cases d with
    | nil =>
      rw [layoutWalk, List.length_nil] at hi
      omega
    | cons b rest =>
      obtain ⟨j, rfl⟩ := Nat.exists_eq_add_of_le' h1
      cases hp : isPow2 (n + 1) with
      | true =>
        rw [layoutWalk, if_pos hp] at hi ⊢
        rcases Nat.eq_zero_or_pos j with rfl | hj
        · rw [bitAt_cons_one, if_pos hp]
        · rw [bitAt_cons_succ _ _ hj, ih hj (Nat.le_of_succ_le_succ hi), dataLen_succ_of_parity hp, Nat.add_right_comm n,
            Nat.add_assoc]
      | false =>
        have hmore := dataLen_succ_of_data hp
        rw [layoutWalk, if_neg (by simp [hp])] at hi ⊢
        rcases Nat.eq_zero_or_pos j with rfl | hj
        · rw [bitAt_cons_one, if_neg (by simp [hp]), hmore, Nat.add_sub_cancel_left, bitAt_cons_one]
        · rw [bitAt_cons_succ _ _ hj, ih hj (Nat.le_of_succ_le_succ hi), Nat.add_right_comm n, Nat.add_assoc]
          cases hq : isPow2 (n + (j + 1)) with
          | true => rfl
          | false =>
            have hahead := dataLen_lt_of_data (m := n + 1) (by omega) hq
            have hcount : dataLen (n + (j + 1)) - dataLen n = dataLen (n + (j + 1)) - dataLen (n + 1) + 1 := by omega
            rw [hcount, bitAt_cons_succ _ _ (by omega)]

/-- The interleaver by position: 0 in a parity slot, and otherwise the data bit numbered by the data positions so far. -/
theorem bitAt_layout {d : Bitstring} {i : Nat} (h1 : 1 ≤ i) (hi : i ≤ encLen d.length) :
    bitAt (layout d) i = if isPow2 i then false else bitAt d (dataLen i) := by
  have hwalk := bitAt_layoutWalk (n := 0) h1 (hi.trans_eq (length_layout d).symm)
  simp only [Nat.zero_add, dataLen_zero, Nat.sub_zero] at hwalk
  exact hwalk

theorem bitAt_layout_of_data {d : Bitstring} {i : Nat} (hi : i ∈ dataPositions (encLen d.length)) :
    bitAt (layout d) i = bitAt d (dataLen i) := by
  obtain ⟨⟨h1, hn⟩, hp⟩ := (mem_dataPositions _ i).mp hi
  rw [bitAt_layout h1 hn, if_neg (by simp [hp])]

/-- Data bit `j` of `k` has its place among the positions of a codeword (44_encode.md R79). -/
theorem encLen_mem_dataPositions {j k : Nat} (h1 : 1 ≤ j) (hk : j ≤ k) : encLen j ∈ dataPositions (encLen k) :=
  (mem_dataPositions _ _).mpr ⟨⟨one_le_encLen h1, encLen_mono hk⟩, isPow2_encLen h1⟩

/-- Settles O27: `DPos(j) = EncLen(j)` is the position with `j` data positions up to it. -/
theorem layoutClosedForm : Obligations.LayoutClosedForm := by
  refine ⟨fun d => ⟨length_layout d, fun p hp => ?_, fun j h1 hk => ?_⟩, by decide⟩
  · obtain ⟨⟨h1, hn⟩, hpar⟩ := (mem_parityPositions _ p).mp hp
    rw [bitAt_layout h1 hn, if_pos hpar]
  · rw [dataPosition_eq_encLen h1, bitAt_layout_of_data (encLen_mem_dataPositions h1 hk), dataLen_encLen]

end Sys2Proof.Machine
end

section
/-! The parity fill (44_encode.md R81, R83, R84): a slot's parity reads data positions only, so no fill of another slot can
change it, and the parallel form merges the same parities. -/

namespace Sys2Proof.Machine

/-- Filling a slot changes the parity of no parity position (41_parity_generator.md R54). -/
theorem parity_writeAt_of_mem_parityPositions {w : Bitstring} {p q : Nat} (v : Bit) (hp : p ∈ parityPositions w.length)
    (hq : q ∈ parityPositions w.length) : parity (writeAt w q v) p = parity w p := by
  refine parity_congr p (length_writeAt w q v) fun i hi => bitAt_writeAt_other w q i v ?_
  rintro rfl
  rw [length_writeAt] at hi
  exact notMem_coverage_of_mem_parityPositions hp hq hi

/-- Filling slots gives each of them its parity over the word as it stood before, and leaves the rest. -/
theorem bitAt_fillSlots {slots : List Nat} {w : Bitstring} (h : ∀ p ∈ slots, p ∈ parityPositions w.length) (i : Nat) :
    bitAt (fillSlots slots w) i = if i ∈ slots then parity w i else bitAt w i := by
  induction slots generalizing w with
  | nil => rfl
  | cons p slots ih =>
    obtain ⟨hp, hslots⟩ := List.forall_mem_cons.mp h
    have hrest : bitAt (fillSlots (p :: slots) w) i =
        if i ∈ slots then parity (writeAt w p (parity w p)) i else bitAt (writeAt w p (parity w p)) i :=
      ih (by rwa [length_writeAt])
    rw [hrest]
    rcases eq_or_ne i p with rfl | hne
    · obtain ⟨⟨h1, hn⟩, -⟩ := (mem_parityPositions _ i).mp hp
      rw [parity_writeAt_self, bitAt_writeAt_same _ _ _ h1 hn, ite_self, if_pos List.mem_cons_self]
    · rw [bitAt_writeAt_other _ _ _ _ hne]
      by_cases hi : i ∈ slots
      · rw [if_pos hi, if_pos (List.mem_cons_of_mem p hi), parity_writeAt_of_mem_parityPositions _ (hslots i hi) hp]
      · rw [if_neg hi, if_neg (by simp [hne, hi])]

/-- The codeword by position: parity of the layout in a slot, the layout anywhere else. -/
theorem bitAt_encodeWord (d : Bitstring) {i : Nat} (h1 : 1 ≤ i) (hi : i ≤ encLen d.length) :
    bitAt (encodeWord d) i = if isPow2 i then parity (layout d) i else bitAt (layout d) i := by
  have hslot : i ∈ parityPositions (layout d).length ↔ isPow2 i = true := by
    rw [mem_parityPositions, length_layout, and_iff_right ⟨h1, hi⟩]
  simp only [encodeWord, bitAt_fillSlots (fun _ hp => hp), hslot]

/-- The slots in any order, over a word that holds the data in place, give the codeword: its slots hold the layout's parities,
whatever they held before (44_encode.md R84). -/
theorem fillSlots_eq_encodeWord {d w : Bitstring} {slots : List Nat} (hl : w.length = encLen d.length)
    (hdata : ∀ i ∈ dataPositions w.length, bitAt w i = bitAt (layout d) i)
    (hslots : ∀ i, i ∈ slots ↔ i ∈ parityPositions w.length) : fillSlots slots w = encodeWord d := by
  refine ext_bitAt (by simp [hl]) fun i h1 hi => ?_
  rw [length_fillSlots] at hi
  rw [bitAt_fillSlots fun p hp => (hslots p).mp hp, bitAt_encodeWord d h1 (hl ▸ hi)]
  cases hp : isPow2 i with
  | true =>
    have hmem : i ∈ parityPositions w.length := (mem_parityPositions _ i).mpr ⟨⟨h1, hi⟩, hp⟩
    rw [if_pos ((hslots i).mpr hmem), if_pos rfl]
    exact parity_eq_of_data_bits_eq (hl.trans (length_layout d).symm) hdata hmem
  | false =>
    have hmem : i ∈ dataPositions w.length := (mem_dataPositions _ i).mpr ⟨⟨h1, hi⟩, hp⟩
    have hnot : i ∉ slots := mt (hslots i).mp ((mem_dataPositions_iff_notMem _ i).mp hmem).2
    rw [if_neg hnot, if_neg Bool.false_ne_true, hdata i hmem]

theorem bitAt_map_positions (f : Nat → Bit) {n i : Nat} (h1 : 1 ≤ i) (hi : i ≤ n) :
    bitAt ((positions n).map f) i = f i := by
  obtain ⟨j, rfl⟩ := Nat.exists_eq_add_of_le' h1
  have hget : (positions n)[j]? = some (j + 1) := by
    rw [positions, List.getElem?_range' hi, Nat.one_mul, Nat.add_comm]
  rw [bitAt_succ, List.getD_eq_getElem?_getD, List.getElem?_map, hget]
  rfl

/-- The merge picks the entry of a parity position by its exponent (41_parity_generator.md R55). -/
theorem getD_log2_parityVector {w : Bitstring} {p : Nat} (hp : p ∈ parityPositions w.length) :
    (parityVector w).getD (Nat.log2 p) false = parity w p := by
  obtain ⟨k, hk, rfl⟩ := (mem_parityPositions_iff_exists _ p).mp hp
  have hentry : k < numPow2 w.length := (lt_numPow2_iff k _).mpr hk
  rw [Nat.log2_two_pow, List.getD_eq_getElem?_getD, parityVector, parityPositions]
  simp [hentry]

/-- The sequential overwrite and the parallel fill give the same codeword (44_encode.md R83). -/
theorem encodeWord_eq_encodeParallel (d : Bitstring) : encodeWord d = encodeParallel d := by
  refine ext_bitAt (by simp [encodeParallel]) fun i h1 hi => ?_
  rw [length_encodeWord] at hi
  have hlay : i ≤ (layout d).length := by rwa [length_layout]
  rw [bitAt_encodeWord d h1 hi, encodeParallel, bitAt_map_positions _ h1 hlay]
  cases hp : isPow2 i with
  | true => rw [if_pos rfl, if_pos rfl, getD_log2_parityVector ((mem_parityPositions _ i).mpr ⟨⟨h1, hlay⟩, hp⟩)]
  | false => rfl

/-- Settles O30: the codeword is the same for every order of the slots, and the parallel form reads the same parities. -/
theorem fillOrderIsNotObservable : Obligations.FillOrderIsNotObservable := by
  intro d w slots hl hdata hperm
  exact ⟨fillSlots_eq_encodeWord hl hdata fun _ => hperm.mem_iff, encodeWord_eq_encodeParallel d⟩

end Sys2Proof.Machine
end

section
/-! ENCODE as an operation (44_encode.md R81, R82, R88), and the last position of its codewords (R87). -/

namespace Sys2Proof.Machine

theorem gives_of_resultFor_eq {s : State} {i : Instr} {r : Result} (hcap : withinCapacity s.inst i = true)
    (h : resultFor i = r) : Gives s i r.dout r.lenOut r.errpos := h ▸ gives_resultFor hcap

/-- Data within the capacity of ENCODE is no longer than the bus, since its codeword is longer still. -/
theorem holdsWord_of_holdsData {inst : Instance} {len : Nat} (h : holdsData inst len = true) :
    holdsWord inst len = true := by
  rw [holdsData_eq_holdsWord_encLen] at h
  exact holdsWord_of_le (le_encLen len) h

theorem length_operand_of_encode {inst : Instance} {len : Nat} {din : Bitstring}
    (hwf : WellFormed inst (.encode len din) = true) (hcap : holdsData inst len = true) :
    (operand len din).length = len :=
  length_operand (length_din_of_wellFormed hwf) (holdsWord_of_holdsData hcap)

/-- ENCODE gives the codeword of its operand, its length and error position 0 (44_encode.md R81). -/
theorem gives_encode {s : State} {len : Nat} {din : Bitstring} (hcap : holdsData s.inst len = true) :
    Gives s (.encode len din) (encodeWord (operand len din)) (layout (operand len din)).length 0 := by
  have hresult : resultFor (.encode len din) =
      ⟨encodeWord (operand len din), (layout (operand len din)).length, 0⟩ := by simp [resultFor, encodeResult]
  exact gives_of_resultFor_eq (i := .encode len din) hcap hresult

/-- Settles O29: the codeword is the fill in the document's order; capacity is the only ground of refusal. -/
theorem encodeResponse : Obligations.EncodeResponse := by
  intro s len din hwf
  refine ⟨fun hcap => ⟨gives_encode hcap, ?_, encodeWord_eq_encodeParallel _⟩, fun hover => ?_, fun hunbounded => ?_⟩
  · rw [length_layout, length_operand_of_encode hwf hcap]
  · exact (exec_eq_refused_iff _ _ _).mpr ⟨hover, rfl⟩
  · rw [hunbounded]
    rfl

theorem holdsWord_zero (inst : Instance) : holdsWord inst 0 = true := by
  cases inst with
  | unbounded => rfl
  | bounded nmax => exact decide_eq_true (Nat.zero_le nmax)

theorem holdsData_zero (inst : Instance) : holdsData inst 0 = true :=
  (holdsData_eq_holdsWord_encLen inst 0).trans (holdsWord_zero inst)

/-- Settles O34: length 0 is within every capacity and leaves no wire of `din` in the operand. -/
theorem encodeEmptyAndOneBit : Obligations.EncodeEmptyAndOneBit := by
  refine ⟨fun s din _ => ?_, fun s din _ => ?_, by decide, by decide⟩
  · exact gives_of_resultFor_eq (r := ⟨[], 0, 0⟩) (holdsData_zero s.inst) rfl
  · exact gives_of_resultFor_eq (r := ⟨[], 0, 0⟩) (holdsWord_zero s.inst) rfl

theorem isPow2_length_encodeWord {d : Bitstring} (h : encodeWord d ≠ []) : isPow2 (encodeWord d).length = false := by
  rw [length_encodeWord]
  refine isPow2_encLen (Nat.one_le_iff_ne_zero.mpr fun hempty => h ?_)
  rw [List.length_eq_zero_iff.mp hempty]
  rfl

/-- The codeword length from a length that ends in data. -/
theorem length_encodeWord_eq {d : Bitstring} {n : Nat} (hp : isPow2 n = false) (h : d.length = dataLen n) :
    (encodeWord d).length = n := by
  rw [length_encodeWord, h, encLen_dataLen hp]

/-- A parity position at the end of the word covers nothing (44_encode.md R87). -/
theorem coverage_self_eq_nil {p : Nat} (h : isPow2 p = true) : coverage p p = [] := by
  have hmem : p ∈ parityPositions p :=
    (mem_parityPositions p p).mpr ⟨⟨((isPow2_iff_form_c p).mp h).1, Nat.le_refl p⟩, h⟩
  rw [coverage_eq_nil_iff hmem]
  split
  case isTrue hone => exact .inl hone
  case isFalse => rfl

/-- Settles O33: the walk stops at the last data bit, and the lengths are read back from the counts of data positions. -/
theorem codewordEndsInData : Obligations.CodewordEndsInData :=
  ⟨fun _ => isPow2_length_encodeWord, fun _ => length_encodeWord_eq (n := 7) (by decide),
    fun _ => length_encodeWord_eq (n := 15) (by decide), fun _ => length_encodeWord_eq (n := 31) (by decide),
    fun _ => length_encodeWord_eq (n := 63) (by decide), fun _ _ => coverage_self_eq_nil⟩

end Sys2Proof.Machine
end

section
/-! The codeword as the one valid word with the data in its place (44_encode.md R85): what ENCODE gives is found by checking
validity and the bits at the data positions. -/

namespace Sys2Proof.Machine

theorem bitAt_encodeWord_of_data {d : Bitstring} {i : Nat} (hi : i ∈ dataPositions (encLen d.length)) :
    bitAt (encodeWord d) i = bitAt d (dataLen i) := by
  obtain ⟨⟨h1, hn⟩, hp⟩ := (mem_dataPositions _ i).mp hi
  rw [bitAt_encodeWord d h1 hn, if_neg (by simp [hp]), bitAt_layout_of_data hi]

/-- A word with the data in its place has the layout's parities (41_parity_generator.md R54). -/
theorem parity_eq_parity_layout {c d : Bitstring} (hl : c.length = encLen d.length)
    (hdata : ∀ i ∈ dataPositions c.length, bitAt c i = bitAt d (dataLen i)) {p : Nat}
    (hp : p ∈ parityPositions c.length) : parity c p = parity (layout d) p :=
  parity_eq_of_data_bits_eq (hl.trans (length_layout d).symm)
    (fun i hi => (hdata i hi).trans (bitAt_layout_of_data (hl ▸ hi)).symm) hp

theorem valid_encodeWord (d : Bitstring) : valid (encodeWord d) = true := by
  have hl := length_encodeWord d
  rw [valid_iff_parity]
  intro p hp
  obtain ⟨⟨h1, hn⟩, hpar⟩ := (mem_parityPositions _ p).mp hp
  rw [bitAt_encodeWord d h1 (hl ▸ hn), if_pos hpar]
  exact (parity_eq_parity_layout hl (fun i hi => bitAt_encodeWord_of_data (hl ▸ hi)) hp).symm

theorem syndrome_encodeWord (d : Bitstring) : syndrome (encodeWord d) = 0 :=
  (valid_iff_syndrome_eq_zero _).mp (valid_encodeWord d)

/-- Validity and the data bits leave no choice: the bits of a valid word in the slots are the layout's parities. -/
theorem encodeWord_eq_of_valid {c d : Bitstring} (hl : c.length = encLen d.length) (hvalid : valid c = true)
    (hdata : ∀ i ∈ dataPositions c.length, bitAt c i = bitAt d (dataLen i)) : encodeWord d = c := by
  refine ext_bitAt ((length_encodeWord d).trans hl.symm) fun i h1 hn => ?_
  rw [length_encodeWord, ← hl] at hn
  cases hp : isPow2 i with
  | true =>
    have hmem : i ∈ parityPositions c.length := (mem_parityPositions _ i).mpr ⟨⟨h1, hn⟩, hp⟩
    rw [bitAt_encodeWord d h1 (hl ▸ hn), if_pos hp, (valid_iff_parity c).mp hvalid i hmem,
      parity_eq_parity_layout hl hdata hmem]
  | false =>
    have hmem : i ∈ dataPositions c.length := (mem_dataPositions _ i).mpr ⟨⟨h1, hn⟩, hp⟩
    rw [hdata i hmem, bitAt_encodeWord_of_data (hl ▸ hmem)]

/-- The `j`-th entry in the list of data positions is `EncLen(j)`, in every word that has `j` of them. -/
theorem getElem?_dataPositions_eq_encLen {j n : Nat} (h1 : 1 ≤ j) (hn : j ≤ dataLen n) :
    (dataPositions n)[j - 1]? = some (encLen j) := by
  obtain ⟨m, hm⟩ := Nat.exists_eq_add_of_le' (one_le_encLen h1)
  have hp : isPow2 (m + 1) = false := hm ▸ isPow2_encLen h1
  have hbefore : dataLen m + 1 = j := by rw [← dataLen_succ_of_data hp, ← hm, dataLen_encLen]
  rw [← hbefore, Nat.add_sub_cancel, hbefore, hm]
  exact getElem?_dataPositions hp (hm ▸ (encLen_le_iff j n).mpr hn)

theorem bitAt_extract {s : Bitstring} {j : Nat} (h1 : 1 ≤ j) (hn : j ≤ dataLen s.length) :
    bitAt (extract s) j = bitAt s (encLen j) := by
  have hget := getElem?_dataPositions_eq_encLen h1 hn
  obtain ⟨i, rfl⟩ := Nat.exists_eq_add_of_le' h1
  rw [Nat.add_sub_cancel] at hget
  rw [bitAt_succ, List.getD_eq_getElem?_getD, extract, List.getElem?_map, hget]
  rfl

theorem bitAt_encodeWord_encLen {d : Bitstring} {j : Nat} (h1 : 1 ≤ j) (hk : j ≤ d.length) :
    bitAt (encodeWord d) (encLen j) = bitAt d j := by
  rw [bitAt_encodeWord_of_data (encLen_mem_dataPositions h1 hk), dataLen_encLen]

/-- Extraction undoes ENCODE (44_encode.md R85). -/
theorem extract_encodeWord (d : Bitstring) : extract (encodeWord d) = d := by
  have hcount : dataLen (encodeWord d).length = d.length := by rw [length_encodeWord, dataLen_encLen]
  refine ext_bitAt (by rw [length_extract, hcount]) fun j h1 hj => ?_
  rw [length_extract] at hj
  rw [bitAt_extract h1 hj, bitAt_encodeWord_encLen h1 (hcount ▸ hj)]

theorem one_le_dataLen_of_data {i : Nat} (h1 : 1 ≤ i) (hp : isPow2 i = false) : 1 ≤ dataLen i :=
  Nat.one_le_of_lt (dataLen_lt_of_data h1 hp)

/-- ENCODE undoes extraction on the valid words of a codeword length (44_encode.md R85). -/
theorem encodeWord_extract {k : Nat} {c : Bitstring} (hl : c.length = encLen k) (hvalid : valid c = true) :
    encodeWord (extract c) = c := by
  refine encodeWord_eq_of_valid (by rw [length_extract, hl, dataLen_encLen]) hvalid fun i hi => ?_
  obtain ⟨⟨h1, hn⟩, hp⟩ := (mem_dataPositions _ i).mp hi
  rw [bitAt_extract (one_le_dataLen_of_data h1 hp) (dataLen_mono hn), encLen_dataLen hp]

/-- A valid word is left alone, with error position 0. -/
theorem correctResult_of_valid {c : Bitstring} (h : valid c = true) : correctResult c = ⟨c, c.length, 0⟩ := by
  have herr : errPos c = 0 := (errPos_eq_zero_iff c).mpr (.inl ((valid_iff_syndrome_eq_zero c).mp h))
  rw [correctResult, herr, flipBit_eq_self (.inl rfl)]

/-- Settles O31: ENCODE and extraction are inverse to each other between the data and the valid words. -/
theorem encodeGivesTheValidCodewords : Obligations.EncodeGivesTheValidCodewords := by
  refine ⟨fun d => ⟨length_encodeWord d, fun j h1 hk => ?_, extract_encodeWord d, syndrome_encodeWord d,
    correctResult_of_valid (valid_encodeWord d)⟩,
    fun d e _ h => ?_, fun k c => ⟨?_, ?_⟩⟩
  · rw [dataPosition_eq_encLen h1, bitAt_encodeWord_encLen h1 hk]
  · rw [← extract_encodeWord d, h, extract_encodeWord]
  · rintro ⟨d, rfl, rfl⟩
    exact ⟨length_encodeWord d, valid_encodeWord d⟩
  · rintro ⟨hl, hvalid⟩
    exact ⟨extract c, by rw [length_extract, hl, dataLen_encLen], encodeWord_extract hl hvalid⟩

end Sys2Proof.Machine
end

section
/-! ENCODE is linear (44_encode.md R86): each claim names a word, which is the codeword since its syndrome is 0 and its data
bits are right. -/

namespace Sys2Proof.Machine

theorem encodeWord_xorWord {d e : Bitstring} (hl : d.length = e.length) :
    encodeWord (xorWord d e) = xorWord (encodeWord d) (encodeWord e) := by
  have hcw : (encodeWord d).length = (encodeWord e).length := by simp [hl]
  have hlen := length_xorWord hcw
  refine encodeWord_eq_of_valid (by rw [hlen, length_encodeWord, length_xorWord hl]) ?_ fun i hi => ?_
  · rw [valid_iff_syndrome_eq_zero, syndrome_xorWord hcw, syndrome_encodeWord, syndrome_encodeWord, Nat.xor_self]
  · rw [hlen, length_encodeWord] at hi
    rw [bitAt_xorWord hcw, bitAt_xorWord hl, bitAt_encodeWord_of_data hi, bitAt_encodeWord_of_data (hl ▸ hi)]

theorem bitAt_replicate_false (n i : Nat) : bitAt (List.replicate n false) i = false := by
  cases i with
  | zero => rfl
  | succ i => rw [bitAt_succ, List.getD_eq_getElem?_getD, List.getElem?_getD_replicate_default_eq]

theorem encodeWord_replicate_false (k : Nat) :
    encodeWord (List.replicate k false) = List.replicate (encLen k) false := by
  refine encodeWord_eq_of_valid (by simp) ?_ fun i _ => ?_
  · rw [valid_iff_syndrome_eq_zero, syndrome_replicate_false]
  · rw [bitAt_replicate_false, bitAt_replicate_false]

/-- Of the parity positions of a word only `2^k` has binary digit `k`. -/
theorem filter_testBit_parityPositions (n k : Nat) :
    (parityPositions n).filter (·.testBit k) = if k < numPow2 n then [2 ^ k] else [] := by
  have hdigit : (fun j => (2 ^ j).testBit k) = (· == k) := by
    funext j
    rw [Nat.testBit_two_pow]
    rfl
  have hcount : List.count k (List.range (numPow2 n)) = if k < numPow2 n then 1 else 0 := by
    rw [List.nodup_range.count]
    simp only [List.mem_range]
  rw [parityPositions, List.filter_map, Function.comp_def, hdigit, List.filter_beq, hcount]
  split <;> rfl

/-- A position of the word is the exclusive or of the parity positions among its binary digits. -/
theorem xorOf_filter_parityPositions {n q : Nat} (h : q ≤ n) :
    xorOf ((parityPositions n).filter (fun p => (q &&& p) != 0)) = q := by
  refine Nat.eq_of_testBit_eq fun k => ?_
  rw [testBit_xorOf, xorAll_map_filter_comm, filter_testBit_parityPositions]
  split
  case isTrue hk =>
    rw [List.map_singleton, xorAll_cons, xorAll_nil, Bool.xor_false, Bool.eq_iff_iff, bne_iff_ne, and_two_pow_ne_zero_iff]
  case isFalse hk =>
    have hlt : q < 2 ^ k := h.trans_lt (Nat.lt_of_not_le (mt (lt_numPow2_iff k n).mpr hk))
    rw [List.map_nil, xorAll_nil, Nat.testBit_lt_two_pow hlt]

@[simp] theorem length_flipAll (s : Bitstring) (qs : List Nat) : (flipAll s qs).length = s.length := by
  induction qs generalizing s with
  | nil => rfl
  | cons q qs ih => exact (ih _).trans (length_flipBit s q)

/-- Flips leave every position that is not listed alone. -/
theorem bitAt_flipAll_of_notMem {s : Bitstring} {qs : List Nat} {i : Nat} (h1 : 1 ≤ i) (hn : i ≤ s.length)
    (h : i ∉ qs) : bitAt (flipAll s qs) i = bitAt s i := by
  induction qs generalizing s with
  | nil => rfl
  | cons q qs ih =>
    obtain ⟨hq, hqs⟩ := List.ne_and_not_mem_of_not_mem_cons h
    have hrest : bitAt (flipAll (flipBit s q) qs) i = bitAt (flipBit s q) i := ih (by rwa [length_flipBit]) hqs
    rw [flipAll, List.foldl_cons, ← flipAll, hrest, bitAt_flipBit q h1 hn, beq_false_of_ne (Ne.symm hq), Bool.xor_false]

/-- The positions of a codeword that depend on data bit `j`: its own, and those of the parity bits that cover it
(44_encode.md R86). -/
def positionsOfDataBit (j n : Nat) : List Nat :=
  encLen j :: (parityPositions n).filter (fun p => (encLen j &&& p) != 0)

/-- A data bit's position and the parity positions that cover it cancel in the syndrome. -/
theorem xorOf_positionsOfDataBit {j n : Nat} (h : encLen j ≤ n) : xorOf (positionsOfDataBit j n) = 0 := by
  have hrest := xorOf_filter_parityPositions h
  calc xorOf (positionsOfDataBit j n)
      = encLen j ^^^ xorOf ((parityPositions n).filter (fun p => (encLen j &&& p) != 0)) := rfl
    _ = 0 := by rw [hrest, Nat.xor_self]

theorem le_of_mem_positionsOfDataBit {j n q : Nat} (h : encLen j ≤ n) (hq : q ∈ positionsOfDataBit j n) : q ≤ n := by
  rcases List.mem_cons.mp hq with rfl | hpar
  · exact h
  · exact ((mem_parityPositions n q).mp (List.mem_filter.mp hpar).1).1.2

/-- Of the data positions, the flips of a data bit reach its own alone. -/
theorem bitAt_flipAll_positionsOfDataBit {s : Bitstring} {i : Nat} (j : Nat) (hi : i ∈ dataPositions s.length) :
    bitAt (flipAll s (positionsOfDataBit j s.length)) i = xor (bitAt s i) (encLen j == i) := by
  obtain ⟨⟨h1, hn⟩, -⟩ := (mem_dataPositions _ i).mp hi
  have hslot : i ∉ (parityPositions s.length).filter (fun p => (encLen j &&& p) != 0) := fun h =>
    ((mem_dataPositions_iff_notMem _ i).mp hi).2 (List.mem_filter.mp h).1
  rw [positionsOfDataBit, flipAll, List.foldl_cons, ← flipAll, bitAt_flipAll_of_notMem h1 (by rwa [length_flipBit]) hslot,
    bitAt_flipBit _ h1 hn]

theorem encLen_beq_of_data {i : Nat} (j : Nat) (hp : isPow2 i = false) : (encLen j == i) = (j == dataLen i) := by
  rw [Bool.eq_iff_iff, beq_iff_eq, beq_iff_eq]
  constructor
  · rintro rfl
    exact (dataLen_encLen j).symm
  · rintro rfl
    exact encLen_dataLen hp

theorem encodeWord_flipBit {d : Bitstring} {j : Nat} (hk : j ≤ d.length) :
    encodeWord (flipBit d j) = flipAll (encodeWord d) (positionsOfDataBit j (encodeWord d).length) := by
  have hpos : encLen j ≤ (encodeWord d).length := by
    rw [length_encodeWord]
    exact encLen_mono hk
  refine encodeWord_eq_of_valid (by simp) ?_ fun i hi => ?_
  · rw [valid_iff_syndrome_eq_zero, syndrome_flipAll fun q => le_of_mem_positionsOfDataBit hpos, syndrome_encodeWord,
      xorOf_positionsOfDataBit hpos, Nat.xor_self]
  · rw [length_flipAll] at hi
    obtain ⟨⟨h1, hn⟩, hp⟩ := (mem_dataPositions _ i).mp hi
    have hdata : dataLen i ≤ d.length := by
      rw [length_encodeWord] at hn
      exact (dataLen_mono hn).trans_eq (dataLen_encLen _)
    rw [bitAt_flipAll_positionsOfDataBit j hi, bitAt_encodeWord_of_data (length_encodeWord d ▸ hi),
      bitAt_flipBit j (one_le_dataLen_of_data h1 hp) hdata, encLen_beq_of_data j hp]

/-- Settles O32: the exclusive or of codewords, the word of zeros and the flipped codeword all have syndrome 0. -/
theorem encodeIsLinear : Obligations.EncodeIsLinear := by
  refine ⟨fun d e => encodeWord_xorWord, encodeWord_replicate_false, fun d j h1 hk => ?_⟩
  rw [encodeWord_flipBit hk, length_encodeWord, dataPosition_eq_encLen h1, positionsOfDataBit]

end Sys2Proof.Machine
end

section
/-! Extraction (45_decode.md R89): it reads the data positions alone, so it undoes the layout as it undoes ENCODE. -/

namespace Sys2Proof.Machine

/-- Words of one length that agree on the data positions have the same extract. -/
theorem extract_congr {s t : Bitstring} (hl : s.length = t.length)
    (h : ∀ i ∈ dataPositions s.length, bitAt s i = bitAt t i) : extract s = extract t := by
  rw [extract, extract, ← hl]
  exact List.map_congr_left h

/-- The layout and the codeword differ in the parity slots only. -/
theorem extract_layout (d : Bitstring) : extract (layout d) = d := by
  have hsame : extract (layout d) = extract (encodeWord d) := by
    refine extract_congr (by simp) fun i hi => ?_
    rw [length_layout] at hi
    rw [bitAt_layout_of_data hi, bitAt_encodeWord_of_data hi]
  rw [hsame, extract_encodeWord]

/-- Settles O35: extraction does not read the parity slots, by which alone `c` and the layout can differ. -/
theorem extractUndoesLayout : Obligations.ExtractUndoesLayout := by
  refine ⟨fun s => ⟨length_extract s, fun j h1 hn => ?_⟩, extract_layout, fun d c hl hdata => ?_, by decide⟩
  · rw [bitAt_extract h1 hn, dataPosition_eq_encLen h1]
  · rw [extract_congr hl hdata, extract_layout]

end Sys2Proof.Machine
end

section
/-! DECODE as an operation (45_decode.md R90 to R94): every statement is about what a flip at the error position of the operand
leaves of its data bits. -/

namespace Sys2Proof.Machine

theorem length_operand_of_decode {inst : Instance} {len : Nat} {din : Bitstring}
    (hwf : WellFormed inst (.decode len din) = true) (hcap : holdsWord inst len = true) :
    (operand len din).length = len :=
  length_operand (length_din_of_wellFormed hwf) hcap

/-- DECODE gives the data bits of the operand flipped at its error position, and error position 0 (45_decode.md R90, R91). -/
theorem gives_decode {s : State} {len : Nat} {din : Bitstring} (hwf : WellFormed s.inst (.decode len din) = true)
    (hcap : holdsWord s.inst len = true) :
    Gives s (.decode len din) (extract (flipBit (operand len din) (errPos (operand len din)))) (dataLen len) 0 := by
  have hgives := gives_resultFor (s := s) (i := .decode len din) hcap
  rwa [resultFor, decodeResult, correctResult, length_operand_of_decode hwf hcap] at hgives

/-- Settles O36: DECODE extracts from the word that CORRECT gives on the same wires. -/
theorem decodeResponse : Obligations.DecodeResponse := by
  intro s len din hwf hcap
  have hwfCorrect : WellFormed s.inst (.correct len din) = true := hwf
  exact ⟨_, _, gives_correct hwfCorrect hcap rfl, gives_decode hwf hcap⟩

/-- A flip reaches the data bit whose position it names (45_decode.md R92). -/
theorem extract_flipBit (s : Bitstring) (e : Nat) :
    extract (flipBit s e) =
      (positions (dataLen s.length)).map fun j => xor (bitAt s (dataPosition j)) (e == dataPosition j) := by
  refine ext_bitAt (by simp) fun j h1 hj => ?_
  rw [length_extract, length_flipBit] at hj
  have hpos : encLen j ≤ s.length := (encLen_le_iff j _).mpr hj
  rw [bitAt_extract h1 (by rwa [length_flipBit]), bitAt_flipBit e (one_le_encLen h1) hpos, bitAt_map_positions _ h1 hj,
    dataPosition_eq_encLen h1]

/-- A flip of no position or of a parity position leaves the data bits as they stand (45_decode.md R92). -/
theorem extract_flipBit_of_not_data {s : Bitstring} {e : Nat} (h : e = 0 ∨ isPow2 e = true) :
    extract (flipBit s e) = extract s := by
  refine extract_congr (length_flipBit s e) fun i hi => ?_
  rw [length_flipBit] at hi
  obtain ⟨⟨h1, hn⟩, hp⟩ := (mem_dataPositions _ i).mp hi
  have hne : e ≠ i := by
    rintro rfl
    rcases h with hzero | hpar
    · omega
    · exact Bool.false_ne_true (hp.symm.trans hpar)
  rw [bitAt_flipBit e h1 hn, beq_false_of_ne hne, Bool.xor_false]

/-- Settles O37: the flip of the corrected word, read at each data position. -/
theorem decodeWithoutCorrectedWord : Obligations.DecodeWithoutCorrectedWord := by
  intro s len din hwf hcap
  have hgives := gives_decode hwf hcap
  refine ⟨?_, fun hnone => ?_⟩
  · rwa [extract_flipBit, length_operand_of_decode hwf hcap] at hgives
  · rwa [extract_flipBit_of_not_data hnone] at hgives

/-- The corrector takes one flip of a valid codeword back; `q = 0` is the word without a flip. -/
theorem flipBit_errPos_flipBit_of_valid {c : Bitstring} {q : Nat} (hc : valid c = true) (hq : q ≤ c.length) :
    flipBit (flipBit c q) (errPos (flipBit c q)) = c := by
  have hsyn := syndrome_flipBit_of_valid hc hq
  have herr : errPos (flipBit c q) = q := by
    rw [errPos_of_syndrome_le (by rwa [hsyn, length_flipBit]), hsyn]
  rw [herr, flipBit_flipBit]

/-- DECODE gives the data back from its codeword with one flip, or with none for `q = 0` (45_decode.md R93). -/
theorem gives_decode_of_flipBit_encodeWord {s : State} {d din : Bitstring} {q : Nat}
    (hwf : WellFormed s.inst (.decode (encodeWord d).length din) = true)
    (hcap : holdsWord s.inst (encodeWord d).length = true) (hq : q ≤ (encodeWord d).length)
    (hoperand : operand (encodeWord d).length din = flipBit (encodeWord d) q) :
    Gives s (.decode (encodeWord d).length din) d d.length 0 := by
  have hgives := gives_decode hwf hcap
  have hlen : dataLen (encodeWord d).length = d.length := by rw [length_encodeWord, dataLen_encLen]
  rwa [hoperand, flipBit_errPos_flipBit_of_valid (valid_encodeWord d) hq, extract_encodeWord, hlen] at hgives

/-- Settles O38: the codeword fits the bus since its data is within capacity, and the corrector restores it. -/
theorem roundTripThroughOneFlip : Obligations.RoundTripThroughOneFlip := by
  intro s len din hwf hcap
  have hlen := length_operand_of_encode hwf hcap
  refine ⟨encodeWord (operand len din), ?_, fun s' din' hinst hwf' hoperand => ?_⟩
  · rw [length_encodeWord, ← length_layout]
    exact gives_encode hcap
  · have hcap' : holdsWord s'.inst (encodeWord (operand len din)).length = true := by
      rwa [hinst, length_encodeWord, hlen, ← holdsData_eq_holdsWord_encLen]
    obtain ⟨q, hq, hflip⟩ : ∃ q, q ≤ (encodeWord (operand len din)).length ∧
        operand (encodeWord (operand len din)).length din' = flipBit (encodeWord (operand len din)) q := by
      rcases hoperand with hsame | ⟨q, -, hq, hflip⟩
      · exact ⟨0, Nat.zero_le _, hsame⟩
      · exact ⟨q, hq, hflip⟩
    have hgives := gives_decode_of_flipBit_encodeWord hwf' hcap' hq hflip
    rwa [hlen] at hgives

/-- Settles O39: the rows are the model's own evaluation; a parity position adds no data position. -/
theorem decodeCornerLengths : Obligations.DecodeCornerLengths :=
  ⟨by decide, by decide, by decide, by decide, by decide, by decide, by decide, by decide, by decide, by decide,
    fun _ => dataLen_succ_of_parity⟩

end Sys2Proof.Machine
end

section
/-! What a host learns of an error (60_exceptions.md R97, R99): the error position tells a changed word from an unchanged one,
and no operand within capacity goes without a response. -/

namespace Sys2Proof.Machine

/-- A flip changes the word exactly where it names one of its positions: there it changes the syndrome. -/
theorem flipBit_eq_self_iff (s : Bitstring) (e : Nat) : flipBit s e = s ↔ e = 0 ∨ s.length < e := by
  refine ⟨fun hsame => ?_, flipBit_eq_self⟩
  rcases Nat.lt_or_ge s.length e with hpast | hin
  · exact .inr hpast
  · have hsyn := syndrome_flipBit hin
    rw [hsame] at hsyn
    exact .inl (Nat.xor_right_injective (hsyn.symm.trans (Nat.xor_zero _).symm))

/-- The corrector changes a word exactly if it has an error position: that position is never past the end. -/
theorem flipBit_errPos_eq_self_iff (s : Bitstring) : flipBit s (errPos s) = s ↔ errPos s = 0 := by
  rw [flipBit_eq_self_iff, or_iff_left (Nat.not_lt_of_le (errPos_le_length s))]

theorem reportsCorrection_iff (r : Response) : reportsCorrection r = true ↔ errposOf r ≠ 0 := bne_iff_ne

/-- Settles O26: the result is the operand flipped at its error position, which is reported. -/
theorem errorPositionTellsCorrection : Obligations.ErrorPositionTellsCorrection := by
  intro s len din hwf hcap
  have hlen := length_operand_of_correct hwf hcap
  obtain ⟨r, hexec, hresult, -, herr, -⟩ := gives_correct hwf hcap rfl
  refine ⟨r, hexec, ?_, ?_⟩
  · rw [reportsCorrection_iff, hresult, herr, ne_eq, ne_eq, flipBit_errPos_eq_self_iff]
  · rw [herr, errPos_eq_zero_iff, valid_iff_syndrome_eq_zero, hlen]

/-- The spec names no fault, and no operation raises one (60_exceptions.md R96). -/
theorem exec_ne_fault (i : Instr) (s : State) (f : Fault) : exec i s ≠ .fault f := by
  rw [exec_eq_answer]
  exact answer_ne_fault s _ f

theorem withinCapacity_of_len_eq_zero (inst : Instance) {i : Instr} (h : i.len = 0) : withinCapacity inst i = true := by
  cases i with
  | encode len din => cases h; exact holdsData_zero inst
  | decode len din => cases h; exact holdsWord_zero inst
  | correct len din => cases h; exact holdsWord_zero inst

/-- The empty operand has the empty result, without an error (60_exceptions.md R99). -/
theorem resultFor_of_len_eq_zero {i : Instr} (h : i.len = 0) : resultFor i = ⟨[], 0, 0⟩ := by
  cases i with
  | encode len din => cases h; rfl
  | decode len din => cases h; rfl
  | correct len din => cases h; rfl

/-- Settles O55: within capacity an instruction gives the result of its operation, and length 0 is within every capacity. -/
theorem totalWithinCapacity : Obligations.TotalWithinCapacity := by
  refine ⟨fun s i _ hcap => ⟨_, _, _, gives_resultFor hcap⟩, fun s i => exec_ne_fault i s, fun s i _ hempty => ?_⟩
  exact gives_of_resultFor_eq (withinCapacity_of_len_eq_zero s.inst hempty) (resultFor_of_len_eq_zero hempty)

end Sys2Proof.Machine
end

section
/-! Decoding and encoding of a request (30_encoding.md sections 1 and 3): the instruction decoded has the operation of the code
and the operands on the ports, so that each determines the other. -/

namespace Sys2Proof.Machine

theorem requestFits_iff (inst : Instance) (r : Request) :
    requestFits inst r = true ↔ lenPortFits inst r = true ∧ dinPortFits inst r = true := Bool.and_eq_true_iff

theorem code_cases (op : OpCode) : op = 0b00#2 ∨ op = 0b01#2 ∨ op = 0b10#2 ∨ op = 0b11#2 := by
  revert op
  decide

/-- A request that decodes is on the wires of the instance, which the decoder tests. -/
theorem requestFits_of_decode {inst : Instance} {r : Request} {i : Instr} (h : decode inst r = .ok i) :
    requestFits inst r = true := by
  rw [decode] at h
  rw [requestFits_iff]
  split_ifs at h with _ hlen hdin <;> simpa using And.intro hlen hdin

/-- An instruction decoded has the operation of the code, and its operands are read off the ports. -/
theorem decode_eq_ok_iff (inst : Instance) (r : Request) (i : Instr) :
    decode inst r = .ok i ↔
      requestFits inst r = true ∧ r.op = opCode i.opName ∧ i.len = lenOf r ∧ i.din = r.din := by
  constructor
  · intro h
    have hfits := requestFits_of_decode h
    obtain ⟨hencode, hdecode, hcorrect, hreserved⟩ := codeSelectsOperation inst r hfits
    rcases code_cases r.op with hop | hop | hop | hop
    · cases h.symm.trans (hencode hop)
      exact ⟨hfits, hop, rfl, rfl⟩
    · cases h.symm.trans (hdecode hop)
      exact ⟨hfits, hop, rfl, rfl⟩
    · cases h.symm.trans (hcorrect hop)
      exact ⟨hfits, hop, rfl, rfl⟩
    · cases h.symm.trans (hreserved hop)
  · rintro ⟨hfits, hop, hlen, hdin⟩
    rw [decode_of_requestFits hfits, hop, ← hlen, ← hdin]
    cases i <;> rfl

theorem wellFormed_iff (inst : Instance) (i : Instr) :
    WellFormed inst i = true ↔ i.len < 2 ^ lenWires inst i.len ∧ i.din.length = busWires inst i.len := by
  simp [WellFormed, Instr.lenFits, Instr.dinFits]

/-- Settles O48: the request has the wires of the instance, the operation's code, and ports that read back as the operands. -/
theorem decodeOfEncode : Obligations.DecodeOfEncode := by
  intro inst i hwf
  obtain ⟨hlen, hlenPort, hdinPort⟩ := Laws.EncodeFits.of_ports i inst hwf
  exact (decode_eq_ok_iff _ _ _).mpr ⟨(requestFits_iff _ _).mpr ⟨hlenPort, hdinPort⟩, rfl, hlen.symm, rfl⟩

/-- Settles O49: wires that are those of the instance are the wires of the number and the bitstring read off them. -/
theorem encodeOfDecode : Obligations.EncodeOfDecode := by
  intro inst r i h
  obtain ⟨hfits, hop, hlen, hdin⟩ := (decode_eq_ok_iff _ _ _).mp h
  obtain ⟨hlenPort, hdinPort⟩ := (requestFits_iff _ _).mp hfits
  have hwires : r.len = onPort inst i.len := hlen ▸ beq_iff_eq.mp hlenPort
  refine ⟨(wellFormed_iff _ _).mpr ⟨?_, ?_⟩, ?_⟩
  · have hlt := ofDigits_lt r.len
    rwa [hwires, length_onPort, ← hwires, ← lenOf, ← hlen] at hlt
  · rw [hdin, hlen]
    exact beq_iff_eq.mp hdinPort
  · rw [encode, ← hop, ← hwires, hdin]

/-- Settles O50: the words and the request are the model's own evaluation. -/
theorem writtenWordsDecode : Obligations.WrittenWordsDecode := ⟨rfl, rfl, rfl, rfl, rfl⟩

end Sys2Proof.Machine
end

section
/-! One step and the response to the request it takes (30_encoding.md section 1): what an accepted request is, what a step can
do, and that the responses stay on the wires of the instance. -/

namespace Sys2Proof.Machine

/-- An accepted request is one that gets a response. -/
theorem accepted_iff_exists_response (inst : Instance) (r : Request) :
    accepted inst r = true ↔ ∃ a, responseTo inst r = .ok a := by
  unfold accepted responseTo
  cases decode inst r with
  | error e => simp
  | ok i => simp [responseFor, respond_eq_ok]

theorem step_of_responseTo {s : State} {r : Request} {rest : List Request} {a : Response} (hs : s.requests = r :: rest)
    (ha : responseTo s.inst r = .ok a) : step s = .next { s with requests := rest, responses := s.responses ++ [a] } := by
  rw [step_eq_answer hs, ha]
  rfl

theorem responsesAlone_of_responseTo {inst : Instance} {r : Request} {a : Response} (ha : responseTo inst r = .ok a) :
    responsesAlone inst r = [a] := by
  have hstep : step (State.only inst r) = .next ⟨inst, [], [a]⟩ := step_of_responseTo rfl ha
  rw [responsesAlone, hstep]
  rfl

/-- Without a request there is no evaluation (log 3). -/
theorem step_of_no_requests {s : State} (h : s.requests = []) : step s = .refused .noRequest := by
  rw [step, (fetch_eq_none s).mpr h]

/-- What a step that goes on does: it takes the oldest request and adds its response. -/
theorem step_eq_next (s t : State) :
    step s = .next t ↔ ∃ r rest a, s.requests = r :: rest ∧ responseTo s.inst r = .ok a ∧
      t = { s with requests := rest, responses := s.responses ++ [a] } := by
  constructor
  · intro h
    cases hs : s.requests with
    | nil => simp [step_of_no_requests hs] at h
    | cons r rest =>
      rw [step_eq_answer hs] at h
      obtain ⟨a, ha, rfl⟩ := (answer_eq_next _ _ _).mp h
      exact ⟨r, rest, a, rfl, ha, rfl⟩
  · rintro ⟨r, rest, a, hs, ha, rfl⟩
    exact step_of_responseTo hs ha

/-- Every response given stands on the wires of the instance (30_encoding.md section 2). -/
theorem responseFits_of_responseTo {inst : Instance} {r : Request} {a : Response} (h : responseTo inst r = .ok a) :
    responseFits inst a = true := by
  obtain ⟨i, -, hwithin, rfl⟩ := responseTo_eq_ok h
  exact responseFits_drive (lenOut_resultFor i) (holdsWord_lenOut_resultFor hwithin) (errpos_resultFor_le_lenOut i)

theorem wf_iff (s : State) :
    s.wf = true ↔ instanceWf s.inst = true ∧ (∀ r ∈ s.requests, requestFits s.inst r = true) ∧
      ∀ a ∈ s.responses, responseFits s.inst a = true := by
  simp only [State.wf, Bool.and_eq_true, List.all_eq_true, and_assoc]

/-- Settles O58: the requests left were waiting before, and the one new response stands on the wires of the instance. -/
theorem stepKeepsWires : Obligations.StepKeepsWires := by
  intro s t hwf hstep
  obtain ⟨r, rest, a, hs, ha, rfl⟩ := (step_eq_next s t).mp hstep
  obtain ⟨hinst, hrequests, hresponses⟩ := (wf_iff s).mp hwf
  rw [hs, List.forall_mem_cons] at hrequests
  exact (wf_iff _).mpr ⟨hinst, hrequests.2,
    List.forall_mem_append.mpr ⟨hresponses, List.forall_mem_singleton.mpr (responseFits_of_responseTo ha)⟩⟩

/-- Settles O52: an answer adds one response, and a step answers in the state without the oldest request. -/
theorem onlyOneResponseIsAdded : Obligations.OnlyOneResponseIsAdded := by
  constructor
  · intro i s t hexec
    rw [exec_eq_answer] at hexec
    obtain ⟨a, -, rfl⟩ := (answer_eq_next _ _ _).mp hexec
    exact ⟨rfl, rfl, a, rfl⟩
  · intro s t hstep
    obtain ⟨r, rest, a, hs, -, rfl⟩ := (step_eq_next s t).mp hstep
    exact ⟨rfl, ⟨r, hs⟩, a, rfl⟩

/-- Settles O59: the request presented first is answered in a state that holds nothing else. -/
theorem resetHoldsNothing : Obligations.ResetHoldsNothing := by
  refine ⟨rfl, rfl, rfl, rfl, fun r hr => ?_⟩
  obtain ⟨a, ha⟩ := (accepted_iff_exists_response _ _).mp hr
  exact ⟨a, step_of_responseTo rfl ha, responsesAlone_of_responseTo ha⟩

/-- A step on a request that decodes is the execution of its instruction. -/
theorem step_of_decode {s : State} {r : Request} {rest : List Request} {i : Instr} (hs : s.requests = r :: rest)
    (hi : decode s.inst r = .ok i) : step s = exec i { s with requests := rest } := by
  rw [step_eq_answer hs, responseTo, hi, exec_eq_answer]

/-- A word of the table is the request of its operation on the empty operand (log 6). -/
theorem step_withFetchWord {s : State} {w : Nat} {i : Instr} (nbits : Nat) (hlen : i.len = 0) (hdin : i.din = onBus s.inst [])
    (hop : BitVec.ofNat 2 w = opCode i.opName) : step (s.withFetchWord nbits w) = exec i s := by
  have hrequest : requestOfTableWord s.inst w = encode s.inst i := by
    rw [requestOfTableWord, encode, hlen, hdin, hop]
  have hwf : WellFormed s.inst i = true := by
    rw [wellFormed_iff, hlen, hdin]
    exact ⟨Nat.two_pow_pos _, length_onBus _ _ (holdsWord_zero _)⟩
  exact step_of_decode (withFetchWord_requests s nbits w) (hrequest ▸ decodeOfEncode s.inst i hwf)

/-- Settles O51: decoding picks the instruction, and a table word is a request that decodes to its operation. -/
theorem stepExecutesDecodedRequest : Obligations.StepExecutesDecodedRequest :=
  ⟨fun _ _ _ _ => step_of_decode, fun _ nbits =>
    ⟨step_withFetchWord nbits rfl rfl rfl, step_withFetchWord nbits rfl rfl rfl, step_withFetchWord nbits rfl rfl rfl⟩⟩

end Sys2Proof.Machine
end

section
/-! Which refusals a request on the wires of the instance meets (60_exceptions.md section 1, 30_encoding.md section 4), and that
an accepted request has its response and nothing more. -/

namespace Sys2Proof.Machine

/-- The answer with a response by capacity, its two outcomes written out (30_encoding.md R42). -/
theorem answer_respond (s : State) (inst : Instance) (within : Bool) (res : Result) :
    s.answer (respond inst within res) =
      if within = false then .refused .overCapacity
      else .next { s with responses := s.responses ++ [drive inst res] } := by
  cases within <;> rfl

/-- Settles O44: the code picks the instruction, whose capacity and result `exec` goes by. -/
theorem stepFollowsExec : Obligations.StepFollowsExec := by
  intro s r rest hs hfits
  obtain ⟨hencode, hdecode, hcorrect, -⟩ := codeSelectsOperation s.inst r hfits
  rcases code_cases r.op with hop | hop | hop | hop
  · rw [step_of_decode hs (hencode hop), exec, execEncode, answer_respond]
    simp [hop, operand]
  · rw [step_of_decode hs (hdecode hop), exec, execDecode, answer_respond]
    simp [hop, operand]
  · rw [step_of_decode hs (hcorrect hop), exec, execCorrect, answer_respond]
    simp [hop, operand]
  · rw [reservedCodeIsRefused s r rest hs hop]
    simp [hop]

/-- Settles O56: the step goes on exactly with a response, which the reserved code and a length over capacity alone lack. -/
theorem stepAnswersExactlyAccepted : Obligations.StepAnswersExactlyAccepted := by
  constructor
  · intro s
    simp only [step_eq_next, accepted_iff_exists_response]
    constructor
    · rintro ⟨t, r, rest, a, hs, ha, -⟩
      exact ⟨r, rest, hs, a, ha⟩
    · rintro ⟨r, rest, hs, a, ha⟩
      exact ⟨_, r, rest, a, hs, ha, rfl⟩
  · intro s r rest hs hfits e hstep
    by_cases hreserved : r.op = 0b11#2
    · rw [reservedCodeIsRefused s r rest hs hreserved] at hstep
      cases hstep
      exact .inl ⟨rfl, hreserved⟩
    · have hdecodes : ∃ i, decode s.inst r = .ok i := by
        rw [decode_of_requestFits hfits, if_neg hreserved]
        split_ifs <;> exact ⟨_, rfl⟩
      obtain ⟨i, hi⟩ := hdecodes
      rw [step_of_decode hs hi, exec_eq_refused_iff] at hstep
      exact .inr ⟨hstep.2, hreserved⟩

/-- CORRECT alone reports an error position (30_encoding.md section 2, 60_exceptions.md section 2). -/
theorem errpos_resultFor_of_decode {inst : Instance} {r : Request} {i : Instr} (h : decode inst r = .ok i) :
    (resultFor i).errpos = if r.op = 0b10#2 then errPos (r.din.take (lenOf r)) else 0 := by
  obtain ⟨-, hop, hlen, hdin⟩ := (decode_eq_ok_iff _ _ _).mp h
  rw [hop, ← hlen, ← hdin]
  cases i <;> rfl

theorem errposOf_of_responseTo {inst : Instance} {r : Request} {a : Response} (h : responseTo inst r = .ok a) :
    errposOf a = if r.op = 0b10#2 then errPos (r.din.take (lenOf r)) else 0 := by
  obtain ⟨i, hi, hwithin, rfl⟩ := responseTo_eq_ok h
  rw [errposOf_drive (holdsWord_of_le (errpos_resultFor_le_lenOut i) (holdsWord_lenOut_resultFor hwithin)),
    errpos_resultFor_of_decode hi]

/-- Settles O57: the step adds the request's response and leaves the instance and the queue behind it, all that the next response
depends on. -/
theorem nothingIsRaised : Obligations.NothingIsRaised := by
  intro s r rest hs hr
  obtain ⟨a, ha⟩ := (accepted_iff_exists_response _ _).mp hr
  refine ⟨a, step_of_responseTo hs ha, responseFits_of_responseTo ha, errposOf_of_responseTo ha, fun q more hrest hq => ?_⟩
  obtain ⟨b, hb⟩ := (accepted_iff_exists_response _ _).mp hq
  refine ⟨b, responsesAlone_of_responseTo hb, ?_⟩
  have hstep := step_of_responseTo (s := { s with requests := rest, responses := s.responses ++ [a] }) hrest hb
  simpa using hstep

end Sys2Proof.Machine
end

section
/-! Runs of several requests (20_memory.md section 5): where a run ends, it has added the response each request gets alone. -/

namespace Sys2Proof.Machine

/-- A run of any machine goes on exactly if its first step and the run after it do. -/
theorem coreRun_succ_eq_next (M : Host.Core) (k : Nat) (s t : M.State) :
    M.run (k + 1) s = .next t ↔ ∃ s', M.step s = .next s' ∧ M.run k s' = .next t := by
  rw [Host.Core.run]
  cases M.step s <;> simp

theorem run_zero_eq_next (s t : State) : core.run 0 s = .next t ↔ t = s := by
  constructor
  · intro h
    cases h
    rfl
  · rintro rfl
    rfl

theorem run_succ_eq_next (k : Nat) (s t : State) :
    core.run (k + 1) s = .next t ↔ ∃ s' : State, step s = .next s' ∧ core.run k s' = .next t :=
  coreRun_succ_eq_next core k s t

/-- A run of the waiting requests ends exactly if all are accepted, and it adds the response of each alone, in order. -/
theorem run_requests_eq_next (inst : Instance) (rs : List Request) (given : List Response) (t : State) :
    core.run rs.length (⟨inst, rs, given⟩ : State) = .next t ↔
      (∀ r ∈ rs, accepted inst r = true) ∧ t = ⟨inst, [], given ++ rs.flatMap (responsesAlone inst)⟩ := by
  induction rs generalizing given with
  | nil => simp [run_zero_eq_next]
  | cons r rs ih =>
    rw [List.length_cons, run_succ_eq_next, List.forall_mem_cons, accepted_iff_exists_response]
    constructor
    · rintro ⟨s', hstep, hrest⟩
      obtain ⟨q, rest, a, hs, ha, rfl⟩ := (step_eq_next _ _).mp hstep
      cases hs
      obtain ⟨hrs, rfl⟩ := (ih _).mp hrest
      exact ⟨⟨⟨a, ha⟩, hrs⟩, by simp [responsesAlone_of_responseTo ha]⟩
    · rintro ⟨⟨⟨a, ha⟩, hrs⟩, rfl⟩
      refine ⟨_, step_of_responseTo rfl ha, (ih _).mpr ⟨hrs, ?_⟩⟩
      simp [responsesAlone_of_responseTo ha]

/-- Settles O54: a run ends exactly if every request is accepted, whatever their order, with the response of each alone. -/
theorem requestsAreIndependent : Obligations.RequestsAreIndependent := by
  refine ⟨fun s hs => (run_requests_eq_next s.inst s.requests s.responses _).mpr ⟨hs, rfl⟩, fun inst r hr => ?_,
    fun inst rs rs' t hperm hrun => ?_⟩
  · obtain ⟨a, ha⟩ := (accepted_iff_exists_response _ _).mp hr
    rw [responsesAlone_of_responseTo ha, List.length_singleton]
  · obtain ⟨hrs, rfl⟩ := (run_requests_eq_next inst rs [] t).mp hrun
    exact ⟨_, (run_requests_eq_next inst rs' [] _).mpr ⟨fun r hr => hrs r (hperm.mem_iff.mpr hr), rfl⟩,
      hperm.flatMap_right _⟩

end Sys2Proof.Machine
end

section
/-! The text of a call and the request it stands for (30_encoding.md sections 2 and 5). -/

namespace Sys2Proof.Machine

theorem bitOfChar_eq_some (ch : Char) (b : Bit) : bitOfChar ch = some b ↔ ch = charOfBit b := by
  unfold bitOfChar
  split_ifs with h0 h1
  · subst h0; cases b <;> decide
  · subst h1; cases b <;> decide
  · cases b <;> simp [charOfBit, h0, h1]

/-- A text is read as the bitstring it is the text of, and no other. -/
theorem bitsOfText_eq_some (text : List Char) (s : Bitstring) : bitsOfText text = some s ↔ text = textOfBits s := by
  induction text generalizing s with
  | nil => cases s <;> simp [bitsOfText, textOfBits]
  | cons ch chs ih =>
    cases s with
    | nil => simp [bitsOfText, textOfBits, Option.bind_eq_some_iff]
    | cons b bs => simp [bitsOfText, textOfBits, Option.bind_eq_some_iff, bitOfChar_eq_some, ih]

/-- A text is that of a bitstring exactly if each of its characters is that of a bit. -/
theorem exists_eq_textOfBits_iff (text : List Char) :
    (∃ s, text = textOfBits s) ↔ ∀ ch ∈ text, ch = '0' ∨ ch = '1' := by
  have hbit : ∀ ch, ch ∈ Set.range charOfBit ↔ ch = '0' ∨ ch = '1' := fun ch => by simp [charOfBit]
  have hrange := Set.ext_iff.mp (Set.range_list_map charOfBit) text
  simp only [hbit] at hrange
  simpa [textOfBits, eq_comm] using hrange

theorem exists_instr_of_ports (op : OpName) (len : Nat) (din : Bitstring) :
    ∃ i : Instr, i.opName = op ∧ i.len = len ∧ i.din = din := by
  cases op with
  | encode => exact ⟨.encode len din, rfl, rfl, rfl⟩
  | decode => exact ⟨.decode len din, rfl, rfl, rfl⟩
  | correct => exact ⟨.correct len din, rfl, rfl, rfl⟩

/-- An operand that the bus holds, put on the ports, makes a well-formed instruction. -/
theorem wellFormed_of_onBus {inst : Instance} {i : Instr} {s : Bitstring} (hlen : i.len = s.length)
    (hdin : i.din = onBus inst s) (h : holdsWord inst s.length = true) : WellFormed inst i = true := by
  rw [wellFormed_iff, hlen, hdin]
  refine ⟨?_, length_onBus inst s h⟩
  have hlt := ofDigits_lt (onPort inst s.length)
  rwa [ofDigits_onPort h, length_onPort] at hlt

theorem requestOfCall_textOfBits {inst : Instance} {op : OpName} {s : Bitstring} (h : holdsWord inst s.length = true) :
    requestOfCall inst op (textOfBits s) = some ⟨opCode op, onPort inst s.length, onBus inst s⟩ := by
  rw [requestOfCall, (bitsOfText_eq_some _ s).mpr rfl]
  exact if_pos h

/-- Settles O47: the request of a call is that of a well-formed instruction, and reading inverts writing. -/
theorem callStandsForRequest : Obligations.CallStandsForRequest := by
  refine ⟨fun inst op s h => ?_, fun text => ?_, fun s => (bitsOfText_eq_some _ s).mpr rfl,
    fun text s h => ((bitsOfText_eq_some _ _).mp h).symm⟩
  · obtain ⟨i, rfl, hlen, hdin⟩ := exists_instr_of_ports op s.length (onBus inst s)
    have hdecode := decodeOfEncode inst i (wellFormed_of_onBus hlen hdin h)
    refine ⟨encode inst i, i, ?_, ?_, hdecode, rfl, ?_⟩
    · rw [requestOfCall_textOfBits h, encode, hlen, hdin]
    · rw [lenOf, encode, hlen, ofDigits_onPort h]
    · rw [operand, hlen, hdin, take_onBus]
  · rw [Option.isSome_iff_exists, ← exists_eq_textOfBits_iff]
    exact exists_congr fun s => bitsOfText_eq_some text s

end Sys2Proof.Machine
end

section
/-! The parity vector by entry, and the number of inputs of a tree (41_parity_generator.md section 2). -/

namespace Sys2Proof.Machine

/-- Below `2^K` every binary digit is 1 in half of the numbers. -/
theorem count_testBit_two_pow {k K : Nat} (h : k < K) : Nat.count (·.testBit k = true) (2 ^ K) = 2 ^ (K - 1) := by
  induction K, h using Nat.le_induction with
  | base =>
    have hlow : Nat.count (·.testBit k = true) (2 ^ k) = 0 :=
      Nat.count_of_forall_not fun i hi => by rw [Nat.testBit_lt_two_pow hi]; decide
    have hhigh : Nat.count (fun i => (2 ^ k + i).testBit k = true) (2 ^ k) = 2 ^ k :=
      Nat.count_of_forall fun i hi => by rw [Nat.testBit_two_pow_add_eq, Nat.testBit_lt_two_pow hi]; rfl
    rw [Nat.succ_eq_add_one, Nat.pow_succ, Nat.mul_two, Nat.count_add, hlow, hhigh, Nat.zero_add, Nat.add_sub_cancel]
  | succ K hK ih =>
    have hhigh : ∀ i, (2 ^ K + i).testBit k = i.testBit k := Nat.testBit_two_pow_add_gt hK
    simp only [Nat.pow_succ, Nat.mul_two, Nat.count_add, hhigh, ih, Nat.add_sub_cancel]
    exact Nat.two_pow_pred_add_two_pow_pred (Nat.zero_lt_of_lt hK)

/-- If 0 does not count, counting the positions `1, …, n` is counting the numbers below `n + 1`. -/
theorem length_filter_positions {p : Nat → Bool} (h0 : p 0 = false) (n : Nat) :
    ((positions n).filter p).length = Nat.count (p · = true) (n + 1) := by
  have hrange : List.range (n + 1) = 0 :: positions n := by rw [List.range_eq_range', List.range'_succ, positions]
  rw [Nat.count, hrange, List.countP_cons_of_neg (by simp [h0]), List.countP_eq_length_filter]
  simp

/-- The tree of `2^k` reads the positions with digit `k`, its own left out (41_parity_generator.md section 2). -/
theorem length_coverage_two_pow {k K : Nat} (h : k < K) : (coverage (2 ^ k) (2 ^ K - 1)).length = 2 ^ (K - 1) - 1 := by
  have hself : 2 ^ k ∈ (positions (2 ^ K - 1)).filter (·.testBit k) := by
    have hlt : 2 ^ k < 2 ^ K := Nat.pow_lt_pow_right (by decide) h
    rw [List.mem_filter, mem_positions]
    exact ⟨⟨Nat.one_le_two_pow, by omega⟩, Nat.testBit_two_pow_self⟩
  rw [← erase_filter_and_ne_zero, filter_and_two_pow, List.length_erase_of_mem hself,
    length_filter_positions (p := (·.testBit k)) (Nat.zero_testBit k), Nat.sub_add_cancel Nat.one_le_two_pow,
    count_testBit_two_pow h]

/-- Settles O9: the entries are the definition read by index; half of the numbers below `2^K` have digit `k`, and `2^k`, one of
them, is no input of its own tree. -/
theorem parityVectorEntries : Obligations.ParityVectorEntries := by
  refine ⟨fun w => ?_, fun K k => length_coverage_two_pow, by decide⟩
  rw [parityVector, parityPositions, List.map_map]
  rfl

end Sys2Proof.Machine
end
